-- ==== Sys2Proof/Word.lean ====
section
/-! DEFINITION. The word type, its radix and the word sequences of 00_scope.md rules R7, R9 and R11. -/

namespace Sys2Proof

/-- A word: 16 bits (rule R7, W is fixed). -/
abbrev Word := BitVec 16

/-- The radix b = 2^16 (rule R7). -/
abbrev radix : Nat := 65536

/-- A BigNat: its words, least significant word first (rule R11). -/
abbrev BigNat := List Word

/-- A 32-bit control register as the host port moves it (10_state.md rule R22). -/
abbrev Word32 := BitVec 32

end Sys2Proof
end

