-- ==== Sys2Proof/Config.lean ====
section
/-! DEFINITION. What an implementation fixes (00_scope.md rule R8) and the free values of the spec. -/

namespace Sys2Proof

/-- The parameters a model takes as arguments (00_scope.md rule R8). They stand in State, never written by a step
(log 8). -/
structure Config where
  /-- `NMAX`, the largest operand length in words. -/
  nmax : Nat
  /-- `MEM_WORDS`, the number of words of OPMEM. -/
  memWords : Nat
deriving DecidableEq, Repr

/-- The defaults of rule R8. -/
def Config.default : Config := { nmax := 64, memWords := 4096 }

/-- The legal ranges of rule R8. -/
def Config.legal (c : Config) : Bool :=
  decide (2 ≤ c.nmax) && decide (c.nmax ≤ 255) && decide (1 ≤ c.memWords) && decide (c.memWords ≤ 65536)

/-- `CORR_CAP`, the iteration cap of both division loops (rule R8; 44_divide.md rule R211). -/
def Config.corrCap : Nat := 65535

/-- Free value: the word the `n`-th draw of a host OPMEM read while BUSY returns (20_memory.md rule R63; log 4).
DESIGN CHOICE only in that draws are numbered; safe. -/
opaque Config.freeWord : Nat → Word

/-- Free value: how many host accesses pass between the `n`-th accepted START and its completion step, any natural
number (40_control.md rule R109; log 3). DESIGN CHOICE only in that draws are numbered; safe. -/
opaque Config.latency : Nat → Nat

/-- A byte lane order of a byte-addressed platform bus (00_scope.md rule R8). DESIGN CHOICE, unsafe: the spec leaves the
range of `HOST_BYTE_ORDER` OPEN (20_memory.md rule R65) and names no set of lane orders; the model admits these two alone
and leaves every other lane order out (log 10). -/
inductive ByteOrder where
  /-- bits 7:0 of the register in the first lane -/
  | little
  /-- the lanes of `little`, all four reversed -/
  | big
deriving DecidableEq, Repr, Inhabited

/-- The parameter `HOST_BYTE_ORDER`, left OPEN by the spec (00_scope.md rule R8, 20_memory.md rule R65): which of the two
orders the model admits is free; that there are two is its choice (log 10). -/
opaque Config.hostByteOrder : ByteOrder

end Sys2Proof
end

