-- ==== Sys2Proof/Machine/Arith.lean ====
section
/-! DEFINITION. The datapath primitives: the internal functions of 41_primitives.md. `b1` of the spec is `b` here, and
an n-word BigNat is a list of n words, so the length argument `n` of vadd, vsub and the copies is the list's own. -/

namespace Sys2Proof.Machine

/-- `val(v)`, the value of a BigNat (00_scope.md rule R11). -/
def val : BigNat → Nat
  | [] => 0
  | w :: ws => w.toNat + radix * val ws

/-- `word(v, k)`, word `k` of a value (00_scope.md rule R10). -/
def wordOf (v k : Nat) : Word := BitVec.ofNat 16 (v / radix ^ k)

/-- Word `i` of a BigNat, `x[i]` (00_scope.md rule R13). Every rule that reads it keeps `i` inside the length. -/
def wordAt (x : BigNat) (i : Nat) : Word := x.getD i 0

/-- `add_word` (rule R131). -/
def addWord (a b : Word) (cin : Bool) : Word × Bool :=
  let s := a.toNat + b.toNat + cin.toNat
  (BitVec.ofNat 16 s, decide (radix ≤ s))

/-- `subtract_word` (rule R132): the borrow is the sign of the true difference (90_conflicts.md C1). -/
def subWord (a b : Word) (bin : Bool) : Word × Bool :=
  (BitVec.ofNat 16 (a.toNat + 2 * radix - b.toNat - bin.toNat), decide (a.toNat < b.toNat + bin.toNat))

/-- The ripple of `vadd` from a carry on. -/
def vaddFrom : BigNat → BigNat → Bool → BigNat × Bool
  | a :: as, b :: bs, cy =>
    let w := addWord a b cy
    let r := vaddFrom as bs w.2
    (w.1 :: r.1, r.2)
  | _, _, cy => ([], cy)

/-- `vadd` (rule R133). -/
def vadd (a b : BigNat) : BigNat × Bool := vaddFrom a b false

/-- The ripple of `vsub` from a borrow on. -/
def vsubFrom : BigNat → BigNat → Bool → BigNat × Bool
  | a :: as, b :: bs, br =>
    let w := subWord a b br
    let r := vsubFrom as bs w.2
    (w.1 :: r.1, r.2)
  | _, _, br => ([], br)

/-- `vsub` (rule R134). -/
def vsub (a b : BigNat) : BigNat × Bool := vsubFrom a b false

/-- The scan of `compare` over the words below index `i`, most significant first. -/
def geqBelow (a b : BigNat) : Nat → Bool
  | 0 => true
  | i + 1 =>
    if (wordAt b i).toNat < (wordAt a i).toNat then true
    else if (wordAt a i).toNat < (wordAt b i).toNat then false
    else geqBelow a b i

/-- `compare(a, b, n)`, "a ≥ b" (rule R135). -/
def geq (a b : BigNat) (n : Nat) : Bool := geqBelow a b n

/-- `copy` (rule R136). -/
def copyWords (src : BigNat) : BigNat := src

/-- `zero` (rule R136). -/
def zeroWords (n : Nat) : BigNat := List.replicate n 0

/-- `shift_up` (rule R137): `k` zero words, then the words of `a`, cut or filled with zero words to `outLen`. -/
def shiftUp (outLen : Nat) (a : BigNat) (k : Nat) : BigNat :=
  (zeroWords k ++ a ++ zeroWords outLen).take outLen

/-- `shift_down` (rule R138). No command uses it. -/
def shiftDown (outLen : Nat) (a : BigNat) (k : Nat) : BigNat :=
  if a.length < outLen + 1 + k then (a.drop k ++ zeroWords outLen).take outLen else zeroWords outLen

/-- `multiply_words` (rule R139). -/
def mulWords (a b : Word) : Nat := a.toNat * b.toNat

/-- `multiply_word_by_vector` from a carry on. -/
def mulWordFrom (a : Word) : BigNat → Nat → BigNat
  | [], carry => [BitVec.ofNat 16 carry]
  | w :: ws, carry =>
    let t := mulWords a w + carry
    BitVec.ofNat 16 t :: mulWordFrom a ws (t / radix)

/-- `multiply_word_by_vector` (rule R140). -/
def mulWordByVector (a : Word) (bv : BigNat) : BigNat := mulWordFrom a bv 0

/-- `div_2by1` (rule R141): `none` is the error DIV_ZERO. -/
def div2by1 (hi lo d : Word) : Option Word :=
  if d.toNat = 0 then none else some (BitVec.ofNat 16 ((hi.toNat * radix + lo.toNat) / d.toNat))

/-- `bit_of_word` (rule R150). -/
def bitOfWord (w : Word) (i : Nat) : Bool := w.getLsbD i

/-- The scan of `word_bit_length` over the bits below index `i`; `none` when no bit is set. -/
def topBitBelow (w : Word) : Nat → Option Nat
  | 0 => none
  | i + 1 => if bitOfWord w i then some i else topBitBelow w i

/-- `word_bit_length` (rule R151): the index of the highest set bit, no value for a zero word (log 11). -/
def wordBitLength (w : Word) : Option Nat := topBitBelow w 16

/-- The scan of `bit_length` over the words below index `k`. -/
def bitLengthBelow (e : BigNat) : Nat → Option Nat
  | 0 => none
  | k + 1 =>
    match wordBitLength (wordAt e k) with
    | some i => some (16 * k + i)
    | none => bitLengthBelow e k

/-- `bit_length` (rule R152): the index of the highest set bit, no value for the all-zero vector (log 11). -/
def bitLength (e : BigNat) : Option Nat := bitLengthBelow e e.length

/-- `bit_at` (rule R153). -/
def bitAt (e : BigNat) (i : Nat) : Bool := bitOfWord (wordAt e (i / 16)) (i % 16)

end Sys2Proof.Machine
end

