-- ==== Sys2Proof/Syntax.lean ====
section
/-! DEFINITION. The commands of spec/opcode_table.json, the command format CMD, and the actions of the host
(30_encoding.md rules R80, R82, R84, R88). -/

namespace Sys2Proof

/-- An input operand as its descriptor registers name it: a word address and a length in words (rule R81). -/
structure Src where
  addr : BitVec 16
  len : BitVec 16
deriving DecidableEq, Repr

/-- The eight commands, each with exactly the descriptor fields it uses (rules R82, R84, R86). A result operand has an
address only; its length is fixed by the input lengths (rule R81). -/
inductive Instr where
  /-- ADD, OP 0x1: operands a, b; result address c. -/
  | add (a b : Src) (c : BitVec 16)
  /-- SUB, OP 0x2: operands a, b; result address c. -/
  | sub (a b : Src) (c : BitVec 16)
  /-- MUL, OP 0x3: operands a, b; result address c. -/
  | mul (a b : Src) (c : BitVec 16)
  /-- DIV, OP 0x4: dividend x, divisor y; quotient address q, remainder address r. -/
  | div (x y : Src) (q r : BitVec 16)
  /-- MODMUL, OP 0x5: operands a, b, modulus p; result address c. -/
  | modmul (a b p : Src) (c : BitVec 16)
  /-- MODEXP, OP 0x6: base g, exponent e, modulus p; result address c. -/
  | modexp (g e p : Src) (c : BitVec 16)
  /-- ADDMOD, OP 0x7: operands a, b, modulus p; result address c. -/
  | addmod (a b p : Src) (c : BitVec 16)
  /-- SUBMOD, OP 0x8: operands a, b, modulus p; result address c. -/
  | submod (a b p : Src) (c : BitVec 16)
deriving DecidableEq, Repr

/-- The command format CMD: the tuple of register fields a START captures (rule R80). The nine live command registers
and the snapshot S both have this shape (10_state.md rules R29, R38). -/
structure Cmd where
  /-- OP, OPCODE[3:0] -/
  op : BitVec 4
  /-- AA, ADDR_A[15:0] -/
  aa : BitVec 16
  /-- LA, LEN_A[15:0] -/
  la : BitVec 16
  /-- AB, ADDR_B[15:0] -/
  ab : BitVec 16
  /-- LB, LEN_B[15:0] -/
  lb : BitVec 16
  /-- AM, ADDR_M[15:0] -/
  am : BitVec 16
  /-- LM, LEN_M[15:0] -/
  lm : BitVec 16
  /-- AC, ADDR_C[15:0] -/
  ac : BitVec 16
  /-- AD, ADDR_D[15:0] -/
  ad : BitVec 16
deriving DecidableEq, Repr

/-- All fields zero: the command registers after reset (10_state.md rule R41). -/
def Cmd.zero : Cmd := { op := 0, aa := 0, la := 0, ab := 0, lb := 0, am := 0, lm := 0, ac := 0, ad := 0 }

/-- One action of the host or the platform at the block's port (rule R88; 70_reset_and_hazards.md rule R340). -/
inductive HostAction where
  /-- `RD`: HostRegRead at a byte offset. -/
  | regRead (off : Nat)
  /-- `WR`: HostRegWrite at a byte offset. -/
  | regWrite (off : Nat) (v : Word32)
  /-- A register-space access of a width other than 32 bits (20_memory.md rule R62). -/
  | regNarrow (off bits : Nat)
  /-- `MR`: HostMemRead at a word address. -/
  | memRead (a : Nat)
  /-- `MW`: HostMemWrite at a word address. -/
  | memWrite (a : Nat) (v : Word)
  /-- `WAIT`: read STATUS until its bit 0 is 0. -/
  | wait
  /-- The platform asserts reset. -/
  | reset
deriving DecidableEq, Repr

end Sys2Proof
end

