-- ==== Sys2Proof/Machine/State.lean ====
section
/-! DEFINITION. The state of the block (10_state.md), the reasons a step can stop, and the state after reset. -/

namespace Sys2Proof.Machine

/-- The error codes of 60_exceptions.md rule R301. They are reported in STATUS and never stop the machine. -/
inductive ErrCode where
  /-- 0x1: OP is 0x0 or 0x9 to 0xF. -/
  | badOpcode
  /-- 0x2: a used length is illegal. -/
  | length
  /-- 0x3: a used region leaves OPMEM. -/
  | bounds
  /-- 0x4: the divisor or modulus is invalid. -/
  | divisor
  /-- 0x5: a modular operand is not reduced. -/
  | range
  /-- 0x6: the 2-by-1 division met a zero divisor word (unreachable, 41_primitives.md rule R141). -/
  | divZero
  /-- 0x7: a division loop exceeded CORR_CAP iterations (unreachable, 44_divide.md rule R211). -/
  | noConverge
deriving DecidableEq, Repr

/-- Why the machine stops with a fault. Every one is a fault the spec itself asks of a model (93_implementation_defined.md
U1, U4; log 2, log 14); all are safe: no claim about what follows can be proved. -/
inductive Fault where
  /-- Raised by a host OPMEM read while IDLE, and by a command reading its inputs, at a word that holds no value
  (10_state.md rule R31). Safe. -/
  | unwrittenWord (a : Nat)
  /-- Raised by a host register access at an offset that is not a multiple of 4 in 0x00 to 0x3C (20_memory.md rule R62).
  Safe. -/
  | undecodedReg (off : Nat)
  /-- Raised by a register-space access of a width other than 32 bits (20_memory.md rule R62). Safe. -/
  | narrowReg (off bits : Nat)
  /-- Raised by a host OPMEM access at a word address not below MEM_WORDS (20_memory.md rule R61). Safe. -/
  | undecodedMem (a : Nat)
deriving DecidableEq, Repr

/-- Why an instruction is refused. -/
inductive Refusal where
  /-- Raised by no arm of exec: every command has its meaning. Safe. -/
  | notModelled (mnemonic : String)
deriving DecidableEq, Repr

/-- OPMEM: the words that hold a value, as (word address, word), addresses strictly rising; an unlisted word holds no
value (10_state.md rules R30, R31; log 1, log 2). -/
abbrev Mem := List (Nat × Word)

/-- The engine phase; STATUS.BUSY shows it (10_state.md rule R37). -/
inductive Phase where
  | idle
  | busy
deriving DecidableEq, Repr

/-- The fields of STATUS but for BUSY (10_state.md rule R26). -/
structure Status where
  /-- DONE, bit 1 -/
  done : Bool
  /-- ERR, bit 2 -/
  err : Bool
  /-- FLAG, bit 3 -/
  flag : Bool
  /-- ERRCODE, bits 11:8 -/
  errcode : BitVec 4
deriving DecidableEq, Repr

/-- Every field 0 (10_state.md rule R41). -/
def Status.zero : Status := { done := false, err := false, flag := false, errcode := 0 }

/-- The private working buffers (10_state.md rule R40). Nothing ever reads what an earlier command left in them. -/
structure Work where
  /-- the working remainder buffer of DIV (44_divide.md rule R201) -/
  rem : BigNat
  /-- the 2n-word product of MODMUL (45_modular.md rule R234) -/
  prod : BigNat
  /-- the accumulator A of MODEXP (46_modexp.md rule R251) -/
  acc : BigNat
  /-- the shifted divisor of DIV (44_divide.md rules R202, R207) -/
  shiftY : BigNat
  /-- the shifted product of DIV (44_divide.md rule R207) -/
  shiftP : BigNat
deriving DecidableEq, Repr

/-- Empty buffers: DESIGN CHOICE for reset, the spec gives no content (log 7). -/
def Work.empty : Work := { rem := [], prod := [], acc := [], shiftY := [], shiftP := [] }

/-- What the last host read returned (the model's own field, log 5). -/
inductive Reply where
  | none
  /-- the 32 bits of a register read -/
  | reg (v : Word32)
  /-- the 16 bits of an OPMEM read -/
  | word (v : Word)
deriving DecidableEq, Repr

/-- The whole state of one instance of the block, with the model's own fields last. -/
structure State where
  /-- the parameters CFG0 and CFG1 show (10_state.md rules R23, R24) -/
  cfg : Config
  /-- STATUS but for BUSY (rule R26) -/
  status : Status
  /-- INTEN.DONE_IE (rule R28) -/
  doneIe : Bool
  /-- OPCODE, the ADDR and the LEN registers (rule R29) -/
  regs : Cmd
  /-- OPMEM (rule R30) -/
  mem : Mem
  /-- the engine phase (rule R37) -/
  phase : Phase
  /-- the command snapshot S (rule R38) -/
  snap : Cmd
  /-- the working buffers (rule R40) -/
  work : Work
  /-- the model's own: host accesses that may still pass before the completion step (log 3) -/
  delay : Nat
  /-- the model's own: the counter free values are drawn at (log 3, log 4) -/
  draws : Nat
  /-- the model's own: what the last host read returned (log 5) -/
  reply : Reply
  /-- the model's own: the host accesses still to come, oldest first (log 5) -/
  host : List HostAction
deriving DecidableEq, Repr

/-- The state after reset for given parameters (10_state.md rule R41, 70_reset_and_hazards.md rule R340). `snap` and
`work` are unspecified by the spec: DESIGN CHOICE (log 6, log 7). -/
def State.resetWith (cfg : Config) : State :=
  { cfg := cfg, status := Status.zero, doneIe := false, regs := Cmd.zero, mem := [], phase := .idle,
    snap := Cmd.zero, work := Work.empty, delay := 0, draws := 0, reply := .none, host := [] }

/-- The machine right after reset, at the default parameters (00_scope.md rule R8; log 8). -/
def State.reset : State := State.resetWith Config.default

end Sys2Proof.Machine
end

