-- ==== Sys2Proof/Machine/Flags.lean ====
section
/-! DEFINITION. STATUS: its word, its flags, and the values an accepted START, a CLEAR and a completion step give it
(10_state.md rules R26, R27, R36; 40_control.md rules R101, R108, R110; 60_exceptions.md rule R301). -/

namespace Sys2Proof.Machine

/-- The number of an error code (60_exceptions.md rule R301). -/
def ErrCode.bits : ErrCode → BitVec 4
  | .badOpcode => 0x1
  | .length => 0x2
  | .bounds => 0x3
  | .divisor => 0x4
  | .range => 0x5
  | .divZero => 0x6
  | .noConverge => 0x7

/-- STATUS.BUSY (10_state.md rule R37). -/
def State.busy (s : State) : Bool := decide (s.phase = .busy)

/-- One bit of a register at position `k`. -/
def bitWord (b : Bool) (k : Nat) : Word32 := (BitVec.ofBool b).setWidth 32 <<< k

/-- STATUS as a register read returns it; bits 7:4 and 31:12 are 0 (10_state.md rule R26). -/
def State.statusWord (s : State) : Word32 :=
  bitWord s.busy 0 ||| bitWord s.status.done 1 ||| bitWord s.status.err 2 ||| bitWord s.status.flag 3 |||
    (s.status.errcode.setWidth 32 <<< 8)

/-- The interrupt output, a level (10_state.md rule R36, 60_exceptions.md rule R310). -/
def State.irq (s : State) : Bool := s.status.done && s.doneIe

/-- STATUS after a completion step that succeeded (40_control.md rule R108): DONE, and FLAG as the command gives it. -/
def Status.ofSuccess (flag : Bool) : Status := { done := true, err := false, flag := flag, errcode := 0 }

/-- STATUS after a completion step that ended in an error (40_control.md rule R108, 60_exceptions.md rule R305). -/
def Status.ofError (e : ErrCode) : Status := { done := true, err := true, flag := false, errcode := e.bits }

end Sys2Proof.Machine
end

