-- ==== Sys2Proof/Machine/Ops.lean ====
section
/-! DEFINITION. The named operations over OPMEM and the registers, the acceptance of a START, CLEAR, the two ends of a
command (a result and an error), and the reset event. -/

namespace Sys2Proof.Machine

/-- A computation goes on with what an earlier one answered, or ends in its error (60_exceptions.md rule R300). -/
def andThen {α β : Type} (m : Except ErrCode α) (f : α → Except ErrCode β) : Except ErrCode β :=
  match m with
  | .error e => .error e
  | .ok a => f a

/-! ### OPMEM -/

/-- The word at a word address, `none` where it holds no value (10_state.md rule R31). -/
def Mem.read : Mem → Nat → Option Word
  | [], _ => none
  | (k, w) :: m, a => if k = a then some w else Mem.read m a

/-- `M[a] <- v`, keeping the addresses strictly rising. -/
def Mem.write : Mem → Nat → Word → Mem
  | [], a, v => [(a, v)]
  | (k, w) :: m, a, v =>
    if a < k then (a, v) :: (k, w) :: m
    else if a = k then (a, v) :: m
    else (k, w) :: Mem.write m a v

/-- Every address is above `lo` and the addresses rise strictly. -/
def Mem.risesFrom : Nat → Mem → Bool
  | _, [] => true
  | lo, (k, _) :: m => decide (lo ≤ k) && Mem.risesFrom (k + 1) m

/-- The canonical form: addresses strictly rising. An unlisted word holds no value, so no entry equals what an unlisted
address reads as. -/
def Mem.wf (m : Mem) : Bool := Mem.risesFrom 0 m

/-- Every listed address lies inside OPMEM (10_state.md rule R30). -/
def Mem.inside (n : Nat) (m : Mem) : Bool := m.all fun c => decide (c.1 < n)

/-- The words of a region, least significant first, or the first address that holds no value (00_scope.md rule R12,
20_memory.md rule R64). -/
def Mem.readWords (m : Mem) (a : Nat) : Nat → Except Nat BigNat
  | 0 => .ok []
  | n + 1 =>
    match m.read a with
    | none => .error a
    | some w =>
      match Mem.readWords m (a + 1) n with
      | .error e => .error e
      | .ok ws => .ok (w :: ws)

/-- `MemWrite(a, n, v)`: word `k` of `v` at `a + k`, for `k` below `n`, in increasing `k` (00_scope.md rule R12). -/
def Mem.writeValue (m : Mem) (a : Nat) : Nat → Nat → Mem
  | 0, _ => m
  | n + 1, v => Mem.writeValue (m.write a (wordOf v 0)) (a + 1) n (v / radix)

/-- A region of OPMEM: a word address and a number of words (40_control.md rule R104). -/
structure Region where
  addr : Nat
  len : Nat
deriving DecidableEq, Repr

/-- The word address lies in the region. -/
def Region.has (r : Region) (a : Nat) : Bool := decide (r.addr ≤ a) && decide (a < r.addr + r.len)

/-- The region lies inside an OPMEM of `n` words, without wrap-around (40_control.md rule R104). -/
def Region.inside (r : Region) (n : Nat) : Bool := decide (r.addr + r.len ≤ n)

/-- The result writes of a command, one value per result region, in the listed order (20_memory.md rule R75). -/
def Mem.storeResults : Mem → List Region → List Nat → Mem
  | m, r :: rs, v :: vs => Mem.storeResults (m.writeValue r.addr r.len v) rs vs
  | m, _, _ => m

/-! ### The two ends of a command -/

/-- Error entry, the analogue of trap entry: STATUS records the code and the engine is idle again; nothing else changes
(60_exceptions.md rules R305, R306; 40_control.md rule R108). -/
def State.fail (s : State) (e : ErrCode) : State :=
  { s with status := Status.ofError e, phase := .idle, delay := 0 }

/-- What `Compute_op` answers when it succeeds: a value for each result region, the FLAG bit, and the working buffers as
the command leaves them (40_control.md rule R107). -/
structure Result where
  values : List Nat
  flag : Bool
  work : Work
deriving DecidableEq, Repr

/-- The successful completion step: the results are stored, STATUS shows DONE and FLAG, the engine is idle again
(40_control.md rule R108). -/
def State.succeed (s : State) (rs : List Region) (r : Result) : State :=
  { s with mem := s.mem.storeResults rs r.values, status := Status.ofSuccess r.flag, phase := .idle,
           work := r.work, delay := 0 }

/-! ### START, CLEAR and reset -/

/-- The effects of an accepted START for a captured tuple: STATUS shows BUSY alone, and S holds the tuple
(40_control.md rules R101, R102). The latency is a free value (rule R109; log 3). -/
def State.accept (s : State) (k : Cmd) : State :=
  { s with status := Status.zero, phase := .busy, snap := k, delay := Config.latency s.draws, draws := s.draws + 1 }

/-- A CLEAR while IDLE (40_control.md rule R110). -/
def State.clear (s : State) : State := { s with status := Status.zero }

/-- The reset event (70_reset_and_hazards.md rules R340, R341): the state after reset with the same parameters. The
model's own fields but the countdown stay: the host goes on with its accesses (log 9). -/
def State.hardReset (s : State) : State :=
  { State.resetWith s.cfg with draws := s.draws, reply := s.reply, host := s.host }

end Sys2Proof.Machine
end

