-- ==== Sys2Proof/Machine/Operands.lean ====
section
/-! DEFINITION. The operand forms of the commands: which regions each reads and writes (30_encoding.md rule R84,
40_control.md rule R104), and the check sequence of 40_control.md rules R103 to R107 as guards a meaning is built
from. -/

namespace Sys2Proof.Machine

/-- The outcome of one step. -/
abbrev Outcome := Host.Outcome State Fault Refusal

/-- The region an input operand names. -/
def srcRegion (x : Src) : Region := { addr := x.addr.toNat, len := x.len.toNat }

/-- A result region at a word address. -/
def resultAt (a : BitVec 16) (n : Nat) : Region := { addr := a.toNat, len := n }

/-- The input operands of a command, A then B then M (30_encoding.md rule R84). -/
def sources : Instr → List Src
  | .add a b _ => [a, b]
  | .sub a b _ => [a, b]
  | .mul a b _ => [a, b]
  | .div x y _ _ => [x, y]
  | .modmul a b p _ => [a, b, p]
  | .modexp g e p _ => [g, e, p]
  | .addmod a b p _ => [a, b, p]
  | .submod a b p _ => [a, b, p]

/-- The result regions of a command, C then D, with the lengths rule R84 of 30_encoding.md fixes; DIV writes the
quotient before the remainder (44_divide.md rule R200). -/
def results : Instr → List Region
  | .add a _ c => [resultAt c a.len.toNat]
  | .sub a _ c => [resultAt c a.len.toNat]
  | .mul a b c => [resultAt c (a.len.toNat + b.len.toNat)]
  | .div x y q r => [resultAt q (x.len.toNat - y.len.toNat + 1), resultAt r y.len.toNat]
  | .modmul a _ _ c => [resultAt c a.len.toNat]
  | .modexp _ _ p c => [resultAt c p.len.toNat]
  | .addmod a _ _ c => [resultAt c a.len.toNat]
  | .submod a _ _ c => [resultAt c a.len.toNat]

/-- The extra length condition of a command (30_encoding.md rule R85). -/
def lengthRule : Instr → Bool
  | .add a b _ => decide (a.len = b.len)
  | .sub a b _ => decide (a.len = b.len)
  | .mul _ _ _ => true
  | .div x y _ _ => decide (y.len.toNat ≤ x.len.toNat)
  | .modmul a b p _ => decide (a.len = b.len ∧ b.len = p.len)
  | .modexp g _ p _ => decide (g.len = p.len)
  | .addmod a b p _ => decide (a.len = b.len ∧ b.len = p.len)
  | .submod a b p _ => decide (a.len = b.len ∧ b.len = p.len)

/-- The LENGTH check: every used length lies in 1 … NMAX, and the extra condition holds (40_control.md rule R103). -/
def lengthsOk (cfg : Config) (i : Instr) : Bool :=
  (sources i).all (fun x => decide (1 ≤ x.len.toNat) && decide (x.len.toNat ≤ cfg.nmax)) && lengthRule i

/-- The BOUNDS check: every input and result region lies inside OPMEM (40_control.md rule R104). -/
def boundsOk (cfg : Config) (i : Instr) : Bool :=
  ((sources i).map srcRegion ++ results i).all fun r => r.inside cfg.memWords

/-- The first checks of every command: LENGTH, then BOUNDS; then the command goes on (40_control.md rule R103). -/
def checked (i : Instr) (s : State) (k : Outcome) : Outcome :=
  if lengthsOk s.cfg i then
    if boundsOk s.cfg i then k else .next (s.fail .bounds)
  else .next (s.fail .length)

/-- ReadInputs for one operand: the words of its region; a word that holds no value is a fault of the model
(40_control.md rule R107, 10_state.md rule R31). -/
def withSrc (x : Src) (s : State) (k : BigNat → Outcome) : Outcome :=
  match s.mem.readWords x.addr.toNat x.len.toNat with
  | .error a => .fault (.unwrittenWord a)
  | .ok ws => k ws

/-- A check of the operands' values: the command goes on where it holds, else it ends in the error. -/
def require (e : ErrCode) (ok : Bool) (s : State) (k : Outcome) : Outcome :=
  if ok then k else .next (s.fail e)

/-- The end of a command: an error, or its results (40_control.md rule R108). -/
def finish (i : Instr) (s : State) : Except ErrCode Result → Outcome
  | .error e => .next (s.fail e)
  | .ok r => .next (s.succeed (results i) r)

/-- CheckDivisor for a command that divides: the divisor has more than one word and its top word is not 0
(40_control.md rule R105). -/
def divisorOk (y : BigNat) : Bool :=
  decide (1 < y.length) && decide (wordAt y (y.length - 1) ≠ 0)

/-- CheckDivisor for ADDMOD and SUBMOD: the modulus's top word is not 0; one word is allowed
(40_control.md rule R105). -/
def modulusOk (p : BigNat) : Bool := decide (wordAt p (p.length - 1) ≠ 0)

/-- CheckRange for one modular operand: it is below the modulus (40_control.md rule R106). -/
def reduced (x p : BigNat) : Bool := decide (val x < val p)

end Sys2Proof.Machine
end

