-- ==== Sys2Proof/Machine/AddSub.lean ====
section
/-! DEFINITION. ADD and SUB (42_add_sub.md). -/

namespace Sys2Proof.Machine

/-- `Compute_ADD` (rule R170): the sum mod b^n, and the carry in FLAG. -/
def computeAdd (w : Work) (a b : BigNat) : Except ErrCode Result :=
  let c := vadd a b
  .ok { values := [val c.1], flag := c.2, work := w }

/-- `Compute_SUB` (rule R172): the difference mod b^n, and the borrow in FLAG. -/
def computeSub (w : Work) (a b : BigNat) : Except ErrCode Result :=
  let c := vsub a b
  .ok { values := [val c.1], flag := c.2, work := w }

/-- The completion step of ADD (rule R170; checks of 40_control.md rules R103, R104). -/
def execAdd (a b : Src) (c : BitVec 16) (s : State) : Outcome :=
  checked (.add a b c) s <|
  withSrc a s fun va => withSrc b s fun vb =>
  finish (.add a b c) s (computeAdd s.work va vb)

/-- The completion step of SUB (rule R172; checks of 40_control.md rules R103, R104). -/
def execSub (a b : Src) (c : BitVec 16) (s : State) : Outcome :=
  checked (.sub a b c) s <|
  withSrc a s fun va => withSrc b s fun vb =>
  finish (.sub a b c) s (computeSub s.work va vb)

end Sys2Proof.Machine
end

