-- ==== Sys2Proof/Machine/Div.lean ====
section
/-! DEFINITION. DIV, the normalized long division (44_divide.md). -/

namespace Sys2Proof.Machine

/-- The buffers of a running division: the quotient, the working remainder x, and the shifted operands
(44_divide.md rule R201, 10_state.md rule R40). -/
structure DivState where
  q : BigNat
  x : BigNat
  shiftY : BigNat
  shiftP : BigNat
deriving DecidableEq, Repr

/-- The loop of step 1, with `fuel` iterations of the cap CORR_CAP left: while x ≥ ys, count one and subtract ys
(rule R202). -/
def topDigitLoop (ys : BigNat) : Nat → Word → BigNat → Except ErrCode (Word × BigNat)
  | 0, q, x => if geq x ys ys.length then .error .noConverge else .ok (q, x)
  | fuel + 1, q, x =>
    if geq x ys ys.length then topDigitLoop ys fuel (q + 1) (vsub x ys).1 else .ok (q, x)

/-- Step 1, the top quotient word (rule R202). -/
def topDigit (y : BigNat) (n : Nat) (st : DivState) : Except ErrCode DivState :=
  let ys := shiftUp n y (n - y.length)
  andThen (topDigitLoop ys Config.corrCap 0 st.x) fun r =>
    .ok { st with q := st.q.set (n - y.length) r.1, x := r.2, shiftY := ys }

/-- What holds on entry to quotient position `j`: `t ≥ 2`, a non-zero top word, dividend position `j + t` inside x, and
`val(x) < val(y) · b^(j+1)` (rules R201, R203). -/
abbrev DigitEntry (x y : BigNat) (j : Nat) : Prop :=
  2 ≤ y.length ∧ wordAt y (y.length - 1) ≠ 0 ∧ j + y.length + 1 ≤ x.length ∧ val x < val y * radix ^ (j + 1)

/-- The true digit `q_j` at quotient position `j`, which steps 2 to 4 find and write (rule R209). -/
def trueDigit (x y : BigNat) (j : Nat) : Nat := val x / (val y * radix ^ j)

/-- Step 2, the trial digit at dividend position `i` (rule R205). -/
def trialDigit (x y : BigNat) (i : Nat) : Except ErrCode Word :=
  let top := wordAt y (y.length - 1)
  if wordAt x i = top then .ok 0xFFFF
  else
    match div2by1 (wordAt x i) (wordAt x (i - 1)) top with
    | none => .error .divZero
    | some qh => .ok qh

/-- The loop of step 3, with `fuel` iterations of the cap left: while qh · Y2 > X3, decrement qh (rule R206). -/
def correctLoop (x3 y2 : Nat) : Nat → Word → Except ErrCode Word
  | 0, qh => if x3 < qh.toNat * y2 then .error .noConverge else .ok qh
  | fuel + 1, qh => if x3 < qh.toNat * y2 then correctLoop x3 y2 fuel (qh - 1) else .ok qh

/-- Step 3, the correction of the trial digit (rule R206). -/
def correctDigit (x y : BigNat) (i : Nat) (qh : Word) : Except ErrCode Word :=
  let x3 := (wordAt x i).toNat * radix ^ 2 + (wordAt x (i - 1)).toNat * radix + (wordAt x (i - 2)).toNat
  let y2 := (wordAt y (y.length - 1)).toNat * radix + (wordAt y (y.length - 2)).toNat
  correctLoop x3 y2 Config.corrCap qh

/-- Step 4, multiply back at quotient position `j`, with the borrow correction (rule R207). -/
def multiplyBack (y : BigNat) (n j : Nat) (qh : Word) (st : DivState) : DivState :=
  let p := shiftUp n (mulWordByVector qh y) j
  if geq st.x p n then { st with x := (vsub st.x p).1, q := st.q.set j qh, shiftP := p }
  else
    let yj := shiftUp n y j
    { q := st.q.set j (qh - 1), x := (vsub (vadd st.x yj).1 p).1, shiftY := yj, shiftP := p }

/-- The quotient position `j`: steps 2 to 4 (rule R201). On entry as `DigitEntry` says, it writes `trueDigit`
(rule R209). -/
def divDigit (y : BigNat) (n j : Nat) (st : DivState) : Except ErrCode DivState :=
  andThen (trialDigit st.x y (j + y.length)) fun qh =>
  andThen (correctDigit st.x y (j + y.length) qh) fun qh' =>
  .ok (multiplyBack y n j qh' st)

/-- The loop over the quotient positions below `j`, downwards (rule R203). -/
def divDigits (y : BigNat) (n : Nat) : Nat → DivState → Except ErrCode DivState
  | 0, st => .ok st
  | j + 1, st => andThen (divDigit y n j st) fun st' => divDigits y n j st'

/-- `divide(x, n, y, t)` (rule R201): the buffers after the last position. The dividend's length may exceed NMAX, as
MODMUL needs (45_modular.md rule R234). -/
def divide (x y : BigNat) : Except ErrCode DivState :=
  let n := x.length
  let t := y.length
  andThen (topDigit y n { q := zeroWords (n - t + 1), x := copyWords x, shiftY := [], shiftP := [] }) fun st =>
  divDigits y n (n - t) st

/-- Step 5, the remainder: the low `t` words of the working remainder buffer (rule R208). -/
def DivState.remainder (st : DivState) (t : Nat) : BigNat := st.x.take t

/-- The working buffers as a division leaves them (10_state.md rule R40). -/
def Work.afterDivide (w : Work) (st : DivState) : Work :=
  { w with rem := st.x, shiftY := st.shiftY, shiftP := st.shiftP }

/-- `Compute_DIV` (rule R200): the quotient, then the remainder. -/
def computeDiv (w : Work) (x y : BigNat) : Except ErrCode Result :=
  andThen (divide x y) fun st =>
    .ok { values := [val st.q, val (st.remainder y.length)], flag := false, work := w.afterDivide st }

/-- The completion step of DIV (rule R200; checks of 40_control.md rules R103 to R105). -/
def execDiv (x y : Src) (q r : BitVec 16) (s : State) : Outcome :=
  checked (.div x y q r) s <|
  withSrc x s fun vx => withSrc y s fun vy =>
  require .divisor (divisorOk vy) s <|
  finish (.div x y q r) s (computeDiv s.work vx vy)

end Sys2Proof.Machine
end

