-- ==== Sys2Proof/Machine/Mul.lean ====
section
/-! DEFINITION. MUL, the schoolbook product (43_multiply.md). -/

namespace Sys2Proof.Machine

/-- Column `k` added to the accumulator: the word products a[i] · b[k-i] for i from max(0, k-nb+1) to min(na-1, k)
(rule R190). -/
def addColumn (a b : BigNat) (k acc : Nat) : Nat :=
  let lo := k + 1 - b.length
  let hi := min a.length (k + 1)
  (List.range' lo (hi - lo)).foldl (fun s i => s + mulWords (wordAt a i) (wordAt b (k - i))) acc

/-- The columns from `k` on, `left` of them, with explicit carry propagation between columns (rule R190). -/
def mulColumns (a b : BigNat) : Nat → Nat → Nat → BigNat
  | 0, _, _ => []
  | left + 1, k, acc =>
    let t := addColumn a b k acc
    BitVec.ofNat 16 t :: mulColumns a b left (k + 1) (t / radix)

/-- The full product of na + nb words (rule R190). -/
def mulFull (a b : BigNat) : BigNat := mulColumns a b (a.length + b.length) 0 0

/-- `Compute_MUL` (rule R190). -/
def computeMul (w : Work) (a b : BigNat) : Except ErrCode Result :=
  .ok { values := [val (mulFull a b)], flag := false, work := w }

/-- The completion step of MUL (rule R190; checks of 40_control.md rules R103, R104). -/
def execMul (a b : Src) (c : BitVec 16) (s : State) : Outcome :=
  checked (.mul a b c) s <|
  withSrc a s fun va => withSrc b s fun vb =>
  finish (.mul a b c) s (computeMul s.work va vb)

end Sys2Proof.Machine
end

