-- ==== Sys2Proof/Machine/Modular.lean ====
section
/-! DEFINITION. ADDMOD, SUBMOD and MODMUL (45_modular.md). -/

namespace Sys2Proof.Machine

/-- `Compute_ADDMOD` (rule R230): the sum, less p once if it carried or is at least p. -/
def computeAddmod (w : Work) (a b p : BigNat) : Except ErrCode Result :=
  let c := vadd a b
  let r := if c.2 || geq c.1 p p.length then (vsub c.1 p).1 else c.1
  .ok { values := [val r], flag := false, work := w }

/-- `Compute_SUBMOD` (rule R232): the difference, plus p once if it borrowed. -/
def computeSubmod (w : Work) (a b p : BigNat) : Except ErrCode Result :=
  let c := vsub a b
  let r := if c.2 then (vadd c.1 p).1 else c.1
  .ok { values := [val r], flag := false, work := w }

/-- `modmul(a, b, p, n)` (rule R234): the full product, reduced by division; the quotient is discarded. Also the working
buffers it leaves. -/
def modmul (w : Work) (a b p : BigNat) : Except ErrCode (BigNat × Work) :=
  let prod := mulFull a b
  andThen (divide prod p) fun st =>
  .ok (st.remainder p.length, { w.afterDivide st with prod := prod })

/-- `Compute_MODMUL` (rule R234). -/
def computeModmul (w : Work) (a b p : BigNat) : Except ErrCode Result :=
  andThen (modmul w a b p) fun r => .ok { values := [val r.1], flag := false, work := r.2 }

/-- The completion step of ADDMOD (rule R230; checks of 40_control.md rules R103 to R106). -/
def execAddmod (a b p : Src) (c : BitVec 16) (s : State) : Outcome :=
  checked (.addmod a b p c) s <|
  withSrc a s fun va => withSrc b s fun vb => withSrc p s fun vp =>
  require .divisor (modulusOk vp) s <|
  require .range (reduced va vp && reduced vb vp) s <|
  finish (.addmod a b p c) s (computeAddmod s.work va vb vp)

/-- The completion step of SUBMOD (rule R232; checks of 40_control.md rules R103 to R106). -/
def execSubmod (a b p : Src) (c : BitVec 16) (s : State) : Outcome :=
  checked (.submod a b p c) s <|
  withSrc a s fun va => withSrc b s fun vb => withSrc p s fun vp =>
  require .divisor (modulusOk vp) s <|
  require .range (reduced va vp && reduced vb vp) s <|
  finish (.submod a b p c) s (computeSubmod s.work va vb vp)

/-- The completion step of MODMUL (rule R234; checks of 40_control.md rules R103 to R106). -/
def execModmul (a b p : Src) (c : BitVec 16) (s : State) : Outcome :=
  checked (.modmul a b p c) s <|
  withSrc a s fun va => withSrc b s fun vb => withSrc p s fun vp =>
  require .divisor (divisorOk vp) s <|
  require .range (reduced va vp && reduced vb vp) s <|
  finish (.modmul a b p c) s (computeModmul s.work va vb vp)

end Sys2Proof.Machine
end

