-- ==== Sys2Proof/Machine/ModExp.lean ====
section
/-! DEFINITION. MODEXP, left-to-right square-and-multiply (46_modexp.md). -/

namespace Sys2Proof.Machine

/-- The value 1 as a BigNat of `n` words (rule R251). -/
def oneWords (n : Nat) : BigNat := (1 :: zeroWords n).take n

/-- The iteration for bit `i`: square A, and multiply by g where the bit is 1 (rule R251). -/
def expBit (g e p : BigNat) (i : Nat) (st : BigNat × Work) : Except ErrCode (BigNat × Work) :=
  andThen (modmul st.2 st.1 st.1 p) fun sq =>
  if bitAt e i then modmul sq.2 sq.1 g p else .ok sq

/-- The bit loop over the bits below `i`, downwards (rule R251). -/
def expLoop (g e p : BigNat) : Nat → BigNat × Work → Except ErrCode (BigNat × Work)
  | 0, st => .ok st
  | i + 1, st => andThen (expBit g e p i st) fun st' => expLoop g e p i st'

/-- The algorithm of rule R251. `bitLength` has no value exactly for e = 0, where the loop is skipped (rule R254). -/
def modexp (w : Work) (g e p : BigNat) : Except ErrCode (BigNat × Work) :=
  match bitLength e with
  | none => .ok (oneWords p.length, w)
  | some t => expLoop g e p (t + 1) (oneWords p.length, w)

/-- `Compute_MODEXP` (rules R250, R251); the accumulator buffer holds the result. -/
def computeModexp (w : Work) (g e p : BigNat) : Except ErrCode Result :=
  andThen (modexp w g e p) fun r => .ok { values := [val r.1], flag := false, work := { r.2 with acc := r.1 } }

/-- The completion step of MODEXP (rule R250; checks of 40_control.md rules R103 to R106). -/
def execModexp (g e p : Src) (c : BitVec 16) (s : State) : Outcome :=
  checked (.modexp g e p c) s <|
  withSrc g s fun vg => withSrc e s fun ve => withSrc p s fun vp =>
  require .divisor (divisorOk vp) s <|
  require .range (reduced vg vp) s <|
  finish (.modexp g e p c) s (computeModexp s.work vg ve vp)

end Sys2Proof.Machine
end

