-- ==== Sys2Proof/Machine/Dispatch.lean ====
section
/-! DEFINITION. One arm per command: the meaning of its completion step. -/

namespace Sys2Proof.Machine

def exec (i : Instr) (s : State) : Host.Outcome State Fault Refusal :=
  match i with
  | .add a b c => Sys2Proof.Machine.execAdd a b c s
  | .sub a b c => Sys2Proof.Machine.execSub a b c s
  | .mul a b c => Sys2Proof.Machine.execMul a b c s
  | .div x y q r => Sys2Proof.Machine.execDiv x y q r s
  | .modmul a b p c => Sys2Proof.Machine.execModmul a b p c s
  | .modexp g e p c => Sys2Proof.Machine.execModexp g e p c s
  | .addmod a b p c => Sys2Proof.Machine.execAddmod a b p c s
  | .submod a b p c => Sys2Proof.Machine.execSubmod a b p c s

end Sys2Proof.Machine
end

