-- ==== Sys2Proof/Decode.lean ====
section
/-! DEFINITION. Decoding a captured command tuple and its register words, and the encoder
(30_encoding.md rules R80 to R84, R87). -/

namespace Sys2Proof

/-- What decoding a command tuple answers: a command, or the reserved OP value by name (rule R83). -/
inductive Decoded where
  | command (i : Instr)
  | reservedOp (op : BitVec 4)
deriving DecidableEq, Repr

/-- The operand A of a tuple. -/
def Cmd.srcA (k : Cmd) : Src := { addr := k.aa, len := k.la }

/-- The operand B of a tuple. -/
def Cmd.srcB (k : Cmd) : Src := { addr := k.ab, len := k.lb }

/-- The operand M of a tuple. -/
def Cmd.srcM (k : Cmd) : Src := { addr := k.am, len := k.lm }

/-- Decoding of the CMD format: the opcode map of rule R82 with the operand mapping of rule R84. The fields a command
does not use are dropped here (rule R86). -/
def decode (k : Cmd) : Decoded :=
  match k.op.toNat with
  | 1 => .command (.add k.srcA k.srcB k.ac)
  | 2 => .command (.sub k.srcA k.srcB k.ac)
  | 3 => .command (.mul k.srcA k.srcB k.ac)
  | 4 => .command (.div k.srcA k.srcB k.ac k.ad)
  | 5 => .command (.modmul k.srcA k.srcB k.srcM k.ac)
  | 6 => .command (.modexp k.srcA k.srcB k.srcM k.ac)
  | 7 => .command (.addmod k.srcA k.srcB k.srcM k.ac)
  | 8 => .command (.submod k.srcA k.srcB k.srcM k.ac)
  | _ => .reservedOp k.op

/-- A tuple with an OP value, operands A and B and result C; the fields M and D are 0. -/
def Cmd.two (op : BitVec 4) (a b : Src) (c : BitVec 16) : Cmd :=
  { Cmd.zero with op := op, aa := a.addr, la := a.len, ab := b.addr, lb := b.len, ac := c }

/-- A tuple with an OP value, operands A, B and M and result C; the field D is 0. -/
def Cmd.three (op : BitVec 4) (a b m : Src) (c : BitVec 16) : Cmd :=
  { Cmd.two op a b c with am := m.addr, lm := m.len }

/-- The encoder: the OP value of rule R82 and the descriptor fields of rule R84; an unused field is 0. -/
def encode : Instr → Cmd
  | .add a b c => Cmd.two 0x1 a b c
  | .sub a b c => Cmd.two 0x2 a b c
  | .mul a b c => Cmd.two 0x3 a b c
  | .div x y q r => { Cmd.two 0x4 x y q with ad := r }
  | .modmul a b p c => Cmd.three 0x5 a b p c
  | .modexp g e p c => Cmd.three 0x6 g e p c
  | .addmod a b p c => Cmd.three 0x7 a b p c
  | .submod a b p c => Cmd.three 0x8 a b p c

/-- Word `i` of a list of register words; a missing word is 0. -/
def regWordAt (ws : List Word32) (i : Nat) : Word32 := ws.getD i 0

/-- The command tuple that nine register words hold, in the order of their offsets 0x14 to 0x34 (10_state.md rule R22):
OPCODE, ADDR_A, LEN_A, ADDR_B, LEN_B, ADDR_M, LEN_M, ADDR_C, ADDR_D. The reserved bits take no part (rule R80). -/
def Cmd.ofWords (ws : List Word32) : Cmd :=
  { op := (regWordAt ws 0).setWidth 4
    aa := (regWordAt ws 1).setWidth 16
    la := (regWordAt ws 2).setWidth 16
    ab := (regWordAt ws 3).setWidth 16
    lb := (regWordAt ws 4).setWidth 16
    am := (regWordAt ws 5).setWidth 16
    lm := (regWordAt ws 6).setWidth 16
    ac := (regWordAt ws 7).setWidth 16
    ad := (regWordAt ws 8).setWidth 16 }

/-- The nine register words of a command tuple, reserved bits 0. -/
def Cmd.toWords (k : Cmd) : List Word32 :=
  [k.op.setWidth 32, k.aa.setWidth 32, k.la.setWidth 32, k.ab.setWidth 32, k.lb.setWidth 32,
   k.am.setWidth 32, k.lm.setWidth 32, k.ac.setWidth 32, k.ad.setWidth 32]

/-- Decoding, total on any list of register words. -/
def decodeWords (ws : List Word32) : Decoded := decode (Cmd.ofWords ws)

/-- The register words of a command. -/
def encodeWords (i : Instr) : List Word32 := (encode i).toWords

/-- The command, if the decoder answers one. -/
def Decoded.toOption : Decoded → Option Instr
  | .command i => some i
  | .reservedOp _ => none

/-- The nine register words of a command whose bits, numbered from bit 0 of OPCODE on, are `w` (log 12). -/
def wordsOfBits (w : Nat) : List Word32 :=
  [BitVec.ofNat 32 w, BitVec.ofNat 32 (w >>> 32), BitVec.ofNat 32 (w >>> 64), BitVec.ofNat 32 (w >>> 96),
   BitVec.ofNat 32 (w >>> 128), BitVec.ofNat 32 (w >>> 160), BitVec.ofNat 32 (w >>> 192),
   BitVec.ofNat 32 (w >>> 224), BitVec.ofNat 32 (w >>> 256)]

/-- The register words of an instruction of which the table gives the low `nbits` bits; every bit above them is 0. -/
def tableWords (nbits w : Nat) : List Word32 := wordsOfBits (w % 2 ^ nbits)

/-- The command the decoder reads from an instruction whose bits are `w`, numbered as spec/opcode_table.json numbers
them. -/
def decodeTableWord (nbits w : Nat) : Option Instr := (decodeWords (tableWords nbits w)).toOption

end Sys2Proof
end

