-- ==== Sys2Proof/Machine/Port.lean ====
section
/-! DEFINITION. The host port: the register map, host register and OPMEM accesses, the CTRL strobes, and one host action
(10_state.md rules R22 to R29, 20_memory.md rules R60 to R68, 40_control.md rules R100, R110, R111). -/

namespace Sys2Proof.Machine

/-- The registers of the map, the two reserved offsets among them (10_state.md rule R22). -/
inductive Reg where
  | cfg0 | cfg1 | ctrl | status | inten | opcode | addrA | lenA | addrB | lenB | addrM | lenM | addrC | addrD
  | reserved38 | reserved3C
deriving DecidableEq, Repr

/-- The registers in the order of their offsets 0x00, 0x04, … 0x3C (10_state.md rule R22). -/
def Reg.map : List Reg :=
  [.cfg0, .cfg1, .ctrl, .status, .inten, .opcode, .addrA, .lenA, .addrB, .lenB, .addrM, .lenM, .addrC, .addrD,
   .reserved38, .reserved3C]

/-- The register at a byte offset; none where the block decodes no register: an offset that is not a multiple of 4 in
0x00 to 0x3C (20_memory.md rule R62). -/
def Reg.ofOffset (off : Nat) : Option Reg := if off % 4 = 0 then Reg.map[off / 4]? else none

/-- The byte offset of a register (10_state.md rule R22). -/
def Reg.offset : Reg → Nat
  | .cfg0 => 0x00
  | .cfg1 => 0x04
  | .ctrl => 0x08
  | .status => 0x0C
  | .inten => 0x10
  | .opcode => 0x14
  | .addrA => 0x18
  | .lenA => 0x1C
  | .addrB => 0x20
  | .lenB => 0x24
  | .addrM => 0x28
  | .lenM => 0x2C
  | .addrC => 0x30
  | .addrD => 0x34
  | .reserved38 => 0x38
  | .reserved3C => 0x3C

/-- CFG0: the word width in bits 7:0, NMAX in bits 15:8 (10_state.md rule R23). -/
def Config.cfg0Word (c : Config) : Word32 := 16#32 ||| ((BitVec.ofNat 8 c.nmax).setWidth 32 <<< 8)

/-- CFG1: MEM_WORDS in bits 16:0 (10_state.md rule R24). -/
def Config.cfg1Word (c : Config) : Word32 := (BitVec.ofNat 17 c.memWords).setWidth 32

/-- What a read of a register returns; reserved bits, reserved offsets and CTRL read 0 (10_state.md rules R22 to R29). -/
def State.readReg (s : State) : Reg → Word32
  | .cfg0 => Config.cfg0Word s.cfg
  | .cfg1 => Config.cfg1Word s.cfg
  | .ctrl => 0
  | .status => s.statusWord
  | .inten => bitWord s.doneIe 0
  | .opcode => s.regs.op.setWidth 32
  | .addrA => s.regs.aa.setWidth 32
  | .lenA => s.regs.la.setWidth 32
  | .addrB => s.regs.ab.setWidth 32
  | .lenB => s.regs.lb.setWidth 32
  | .addrM => s.regs.am.setWidth 32
  | .lenM => s.regs.lm.setWidth 32
  | .addrC => s.regs.ac.setWidth 32
  | .addrD => s.regs.ad.setWidth 32
  | .reserved38 => 0
  | .reserved3C => 0

/-- A write of CTRL: ignored while BUSY; while IDLE CLEAR (bit 1) is applied first, then START (bit 0)
(40_control.md rules R100, R110, R111). -/
def State.writeCtrl (s : State) (v : Word32) : State :=
  if s.busy then s
  else
    let s1 := if v.getLsbD 1 then s.clear else s
    if v.getLsbD 0 then s1.accept s1.regs else s1

/-- The live command registers replaced (10_state.md rule R29). -/
def State.withRegs (s : State) (k : Cmd) : State := { s with regs := k }

/-- A write of a register: read-only registers and reserved offsets ignore it, a command register keeps its field's
bits, also while BUSY (10_state.md rules R23 to R29, 20_memory.md rule R62). -/
def State.writeReg (s : State) (v : Word32) : Reg → State
  | .cfg0 => s
  | .cfg1 => s
  | .ctrl => s.writeCtrl v
  | .status => s
  | .inten => { s with doneIe := v.getLsbD 0 }
  | .opcode => s.withRegs { s.regs with op := v.setWidth 4 }
  | .addrA => s.withRegs { s.regs with aa := v.setWidth 16 }
  | .lenA => s.withRegs { s.regs with la := v.setWidth 16 }
  | .addrB => s.withRegs { s.regs with ab := v.setWidth 16 }
  | .lenB => s.withRegs { s.regs with lb := v.setWidth 16 }
  | .addrM => s.withRegs { s.regs with am := v.setWidth 16 }
  | .lenM => s.withRegs { s.regs with lm := v.setWidth 16 }
  | .addrC => s.withRegs { s.regs with ac := v.setWidth 16 }
  | .addrD => s.withRegs { s.regs with ad := v.setWidth 16 }
  | .reserved38 => s
  | .reserved3C => s

/-- `HostRegRead(off)` (20_memory.md rules R62, R68): the reply is the register's word, nothing else changes. -/
def hostRegRead (off : Nat) (s : State) : Outcome :=
  match Reg.ofOffset off with
  | none => .fault (.undecodedReg off)
  | some r => .next { s with reply := .reg (s.readReg r) }

/-- `HostRegWrite(off, v)` (20_memory.md rule R62). -/
def hostRegWrite (off : Nat) (v : Word32) (s : State) : Outcome :=
  match Reg.ofOffset off with
  | none => .fault (.undecodedReg off)
  | some r => .next (s.writeReg v r)

/-- `HostMemRead(a)` (20_memory.md rules R61, R63): while BUSY a free word; else the stored word, and a word that holds
no value is a fault (10_state.md rule R31). -/
def hostMemRead (a : Nat) (s : State) : Outcome :=
  if s.cfg.memWords ≤ a then .fault (.undecodedMem a)
  else if s.busy then .next { s with reply := .word (Config.freeWord s.draws), draws := s.draws + 1 }
  else
    match s.mem.read a with
    | none => .fault (.unwrittenWord a)
    | some w => .next { s with reply := .word w }

/-- `HostMemWrite(a, v)` (20_memory.md rules R61, R63): ignored while BUSY. -/
def hostMemWrite (a : Nat) (v : Word) (s : State) : Outcome :=
  if s.cfg.memWords ≤ a then .fault (.undecodedMem a)
  else if s.busy then .next s
  else .next { s with mem := s.mem.write a v }

/-- One host access passes: the countdown to the completion step goes down, and `rest` is still to come (log 3). -/
def State.advance (s : State) (rest : List HostAction) : State :=
  { s with delay := s.delay - 1, host := rest }

/-- One host action, taken from the head of the host's list (30_encoding.md rule R88). WAIT is one read of STATUS, and
stays at the head while that read shows BUSY. -/
def hostStep (act : HostAction) (rest : List HostAction) (s : State) : Outcome :=
  match act with
  | .regRead off => hostRegRead off (s.advance rest)
  | .regWrite off v => hostRegWrite off v (s.advance rest)
  | .regNarrow off bits => .fault (.narrowReg off bits)
  | .memRead a => hostMemRead a (s.advance rest)
  | .memWrite a v => hostMemWrite a v (s.advance rest)
  | .wait => hostRegRead (Reg.offset .status) (s.advance (if s.busy then .wait :: rest else rest))
  | .reset => .next (s.advance rest).hardReset

/-- The register words as a byte-addressed platform bus sees them, in the lane order of the parameter
`HOST_BYTE_ORDER` (20_memory.md rule R65). DESIGN CHOICE: two lane orders alone (log 10). No step reads it. -/
def busLanes (v : Word32) : List (BitVec 8) :=
  let low := [v.extractLsb' 0 8, v.extractLsb' 8 8, v.extractLsb' 16 8, v.extractLsb' 24 8]
  match Config.hostByteOrder with
  | .little => low
  | .big => low.reverse

end Sys2Proof.Machine
end

