-- ==== Sys2Proof/Machine/Engine.lean ====
section
/-! DEFINITION. The engine's completion step, and which agent moves next (40_control.md rules R103, R108, R109). -/

namespace Sys2Proof.Machine

/-- The completion step of the command in S: a reserved OP ends in BAD_OPCODE, else the command's own completion step
(40_control.md rules R103, R108). -/
def complete (s : State) : Outcome :=
  match decode s.snap with
  | .reservedOp _ => .next (s.fail .badOpcode)
  | .command i => exec i s

/-- The engine moves next: a command runs, and no host access is pending or the countdown is over (log 3). -/
def State.engineDue (s : State) : Bool := s.busy && (s.host.isEmpty || decide (s.delay = 0))

/-- The host moves next: its first pending action; with none the block waits unchanged (70_reset_and_hazards.md
rule R342). -/
def hostTurn (s : State) : Outcome :=
  match s.host with
  | [] => .next s
  | act :: rest => hostStep act rest s

end Sys2Proof.Machine
end

