-- ==== Sys2Proof/Machine/Step.lean ====
section
/-! DEFINITION. One step of the whole machine, and the placing of a command as the next to run. -/

namespace Sys2Proof.Machine

/-- One step: the engine's completion step where it is due, else the host's next action
(00_scope.md rule R16, 40_control.md rule R109). -/
def step (s : State) : Outcome := if s.engineDue then complete s else hostTurn s

/-- `s` with the command whose bits are `w` captured by an accepted START, its completion step due at once: it stands
for the host's register writes and START (log 12). -/
def State.withFetchWord (s : State) (nbits w : Nat) : State :=
  { s.accept (Cmd.ofWords (tableWords nbits w)) with delay := 0 }

end Sys2Proof.Machine
end

