-- ==== Sys2Proof/Machine/Assembler.lean ====
section
/-! DEFINITION. The host syntax's macros: MWV, and the pseudo-instructions with their expansion into bus transactions
(30_encoding.md rules R88, R89). -/

namespace Sys2Proof.Machine

/-- `MWV addr, len, value`: word `k` of the value at `addr + k`, in increasing `k` (rule R88). -/
def mwv (a : Nat) : Nat → Nat → List HostAction
  | 0, _ => []
  | n + 1, v => .memWrite a (wordOf v 0) :: mwv (a + 1) n (v / radix)

/-- The pseudo-instructions, mirroring the source's signatures (rule R89). -/
inductive Pseudo where
  | add (c a b n : BitVec 16)
  | sub (c a b n : BitVec 16)
  | mul (c a na b nb : BitVec 16)
  | div (q r x n y t : BitVec 16)
  | modmul (c a b p n : BitVec 16)
  | addmod (c a b p n : BitVec 16)
  | submod (c a b p n : BitVec 16)
  | modexp (res g e elen p plen : BitVec 16)
deriving DecidableEq, Repr

/-- The command a pseudo-instruction stands for (rules R84, R89). -/
def Pseudo.toInstr : Pseudo → Instr
  | .add c a b n => .add { addr := a, len := n } { addr := b, len := n } c
  | .sub c a b n => .sub { addr := a, len := n } { addr := b, len := n } c
  | .mul c a na b nb => .mul { addr := a, len := na } { addr := b, len := nb } c
  | .div q r x n y t => .div { addr := x, len := n } { addr := y, len := t } q r
  | .modmul c a b p n => .modmul { addr := a, len := n } { addr := b, len := n } { addr := p, len := n } c
  | .addmod c a b p n => .addmod { addr := a, len := n } { addr := b, len := n } { addr := p, len := n } c
  | .submod c a b p n => .submod { addr := a, len := n } { addr := b, len := n } { addr := p, len := n } c
  | .modexp r g e elen p plen => .modexp { addr := g, len := plen } { addr := e, len := elen } { addr := p, len := plen } r

/-- A write of a register by name. -/
def wr (r : Reg) (v : Word32) : HostAction := .regWrite r.offset v

/-- The writes of OPCODE and of the descriptors A and B. -/
def writeTwo (op : BitVec 4) (a b : Src) : List HostAction :=
  [wr .opcode (op.setWidth 32), wr .addrA (a.addr.setWidth 32), wr .lenA (a.len.setWidth 32),
   wr .addrB (b.addr.setWidth 32), wr .lenB (b.len.setWidth 32)]

/-- The writes of the descriptor M. -/
def writeM (m : Src) : List HostAction := [wr .addrM (m.addr.setWidth 32), wr .lenM (m.len.setWidth 32)]

/-- The write of the result address C. -/
def writeC (c : BitVec 16) : List HostAction := [wr .addrC (c.setWidth 32)]

/-- The register writes of a command: OPCODE and every field it uses; an unused field is not written (rule R89). -/
def setupWrites : Instr → List HostAction
  | .add a b c => writeTwo 0x1 a b ++ writeC c
  | .sub a b c => writeTwo 0x2 a b ++ writeC c
  | .mul a b c => writeTwo 0x3 a b ++ writeC c
  | .div x y q r => writeTwo 0x4 x y ++ writeC q ++ [wr .addrD (r.setWidth 32)]
  | .modmul a b p c => writeTwo 0x5 a b ++ writeM p ++ writeC c
  | .modexp g e p c => writeTwo 0x6 g e ++ writeM p ++ writeC c
  | .addmod a b p c => writeTwo 0x7 a b ++ writeM p ++ writeC c
  | .submod a b p c => writeTwo 0x8 a b ++ writeM p ++ writeC c

/-- The expansion of a command: its register writes, `WR CTRL, 0x1`, `WAIT` (rule R89). -/
def expand (i : Instr) : List HostAction := setupWrites i ++ [wr .ctrl 0x1, .wait]

end Sys2Proof.Machine
end

