-- ==== Sys2Proof/WellFormed.lean ====
section
/-! DEFINITION. When a command is well-formed for given parameters: the static legality of its descriptors, written
command by command from the tables of 30_encoding.md rule R85 and 40_control.md rule R104. The machine's own checks
stand in Machine/Operands.lean; that the two agree is proved in Laws/WellFormed.lean. -/

namespace Sys2Proof

/-- A length a command uses lies in 1 … NMAX (rule R85). -/
def Config.lenOk (cfg : Config) (n : BitVec 16) : Bool :=
  decide (1 ≤ n.toNat) && decide (n.toNat ≤ cfg.nmax)

/-- The region of `n` words at word address `a` lies inside OPMEM, without wrap-around (rule R104). -/
def Config.fits (cfg : Config) (a : BitVec 16) (n : Nat) : Bool :=
  decide (a.toNat + n ≤ cfg.memWords)

/-- The length legality of a command: every used length in range, and the condition of its row of rule R85. -/
def Instr.lengthsLegal (cfg : Config) : Instr → Bool
  | .add a b _ => cfg.lenOk a.len && cfg.lenOk b.len && decide (a.len = b.len)
  | .sub a b _ => cfg.lenOk a.len && cfg.lenOk b.len && decide (a.len = b.len)
  | .mul a b _ => cfg.lenOk a.len && cfg.lenOk b.len
  | .div x y _ _ => cfg.lenOk x.len && cfg.lenOk y.len && decide (y.len.toNat ≤ x.len.toNat)
  | .modmul a b p _ =>
    cfg.lenOk a.len && cfg.lenOk b.len && cfg.lenOk p.len && decide (a.len = b.len) && decide (b.len = p.len)
  | .modexp g e p _ => cfg.lenOk g.len && cfg.lenOk e.len && cfg.lenOk p.len && decide (g.len = p.len)
  | .addmod a b p _ =>
    cfg.lenOk a.len && cfg.lenOk b.len && cfg.lenOk p.len && decide (a.len = b.len) && decide (b.len = p.len)
  | .submod a b p _ =>
    cfg.lenOk a.len && cfg.lenOk b.len && cfg.lenOk p.len && decide (a.len = b.len) && decide (b.len = p.len)

/-- The regions of a command lie inside OPMEM: its row of rule R104. -/
def Instr.regionsInside (cfg : Config) : Instr → Bool
  | .add a b c => cfg.fits a.addr a.len.toNat && cfg.fits b.addr b.len.toNat && cfg.fits c a.len.toNat
  | .sub a b c => cfg.fits a.addr a.len.toNat && cfg.fits b.addr b.len.toNat && cfg.fits c a.len.toNat
  | .mul a b c =>
    cfg.fits a.addr a.len.toNat && cfg.fits b.addr b.len.toNat && cfg.fits c (a.len.toNat + b.len.toNat)
  | .div x y q r =>
    cfg.fits x.addr x.len.toNat && cfg.fits y.addr y.len.toNat && cfg.fits q (x.len.toNat - y.len.toNat + 1) &&
      cfg.fits r y.len.toNat
  | .modmul a b p c =>
    cfg.fits a.addr a.len.toNat && cfg.fits b.addr b.len.toNat && cfg.fits p.addr p.len.toNat && cfg.fits c a.len.toNat
  | .modexp g e p c =>
    cfg.fits g.addr g.len.toNat && cfg.fits e.addr e.len.toNat && cfg.fits p.addr p.len.toNat && cfg.fits c p.len.toNat
  | .addmod a b p c =>
    cfg.fits a.addr a.len.toNat && cfg.fits b.addr b.len.toNat && cfg.fits p.addr p.len.toNat && cfg.fits c a.len.toNat
  | .submod a b p c =>
    cfg.fits a.addr a.len.toNat && cfg.fits b.addr b.len.toNat && cfg.fits p.addr p.len.toNat && cfg.fits c a.len.toNat

/-- The static legality of a command: it passes the LENGTH and the BOUNDS check. -/
def Instr.wellFormed (cfg : Config) (i : Instr) : Bool := i.lengthsLegal cfg && i.regionsInside cfg

end Sys2Proof
end

