-- ==== Sys2Proof/Safety.lean ====
section
/-! DEFINITION. What a consistent state is, and what counts as a safe step: the terms claims are stated in. -/

namespace Sys2Proof.Machine

/-- The working buffers hold at most 2·NMAX + 1 words each (10_state.md rule R40). -/
def Work.bounded (w : Work) (nmax : Nat) : Bool :=
  decide (w.rem.length ≤ 2 * nmax + 1) && decide (w.prod.length ≤ 2 * nmax + 1) &&
    decide (w.acc.length ≤ 2 * nmax + 1) && decide (w.shiftY.length ≤ 2 * nmax + 1) &&
    decide (w.shiftP.length ≤ 2 * nmax + 1)

/-- STATUS is consistent with the phase: while BUSY every other field is 0, ERR and FLAG only with DONE and never both,
ERRCODE is non-zero exactly with ERR and is one of the codes 1 to 7 (10_state.md rules R26, R27; 60_exceptions.md rule
R301). -/
def State.statusOk (s : State) : Bool :=
  (!s.busy || decide (s.status = Status.zero)) && (!s.status.err || s.status.done) && (!s.status.flag || s.status.done) &&
    !(s.status.err && s.status.flag) && (s.status.err == decide (s.status.errcode ≠ 0)) &&
    decide (s.status.errcode.toNat ≤ 7)

/-- The invariant of the block: legal parameters, OPMEM in canonical form and inside MEM_WORDS, a consistent STATUS,
bounded working buffers. -/
def State.Inv (s : State) : Prop :=
  s.cfg.legal = true ∧ s.mem.wf = true ∧ s.mem.inside s.cfg.memWords = true ∧ s.statusOk = true ∧
    s.work.bounded s.cfg.nmax = true

/-- A step that goes on: neither a fault of the model nor a refusal. -/
def Outcome.goesOn : Outcome → Bool
  | .next _ => true
  | .fault _ => false
  | .refused _ => false

/-- A state whose next step goes on. -/
def State.Safe (s : State) : Prop := Outcome.goesOn (step s) = true

/-- The operand's words in OPMEM are `ws` (40_control.md rule R107). -/
def State.holds (s : State) (x : Src) (ws : BigNat) : Prop :=
  s.mem.readWords x.addr.toNat x.len.toNat = .ok ws

/-- Some word of the operand's region holds no value (10_state.md rule R31). -/
def State.unwrittenIn (s : State) (x : Src) : Prop := ∃ k < x.len.toNat, s.mem.read (x.addr.toNat + k) = none

/-- The machine of Host/Core.lean after `k` steps. -/
abbrev runSteps (k : Nat) (s : State) : Outcome := Host.Core.run Sys2Proof.core k s

end Sys2Proof.Machine
end

