-- ==== Sys2Proof/Certificates/Slice0/Obligations.lean ====
section
/-! DEFINITION. The statements for the provers, each from the numbered rules of spec/ its docstring names. -/

open Sys2Proof Sys2Proof.Machine

/-! ### Encoding -/

/-- 30_encoding.md rules R80, R82, R84: the register words of a command decode to it, whatever the reserved bits and
whatever follows the nine words. -/
def Obligations.RegisterWordsDecodeToTheirCommand : Prop :=
  ∀ (i : Instr) (ws : List Word32),
    (regWordAt ws 0).setWidth 4 = ((regWordAt (encodeWords i) 0).setWidth 4 : BitVec 4) →
    (∀ k, 1 ≤ k → k < 9 →
      (regWordAt ws k).setWidth 16 = ((regWordAt (encodeWords i) k).setWidth 16 : BitVec 16)) →
    decodeWords ws = .command i

/-- Rules R82, R83: exactly the OP values 0x0 and 0x9 to 0xF are reserved. -/
def Obligations.ReservedOpValuesAreRejected : Prop :=
  ∀ k : Cmd, (decode k = .reservedOp k.op ↔ k.op.toNat = 0 ∨ 9 ≤ k.op.toNat) ∧
    ∀ op, decode k = .reservedOp op → op = k.op

/-- 30_encoding.md rule R86 (which fields: rule R84): a command does not read a field it does not use, and the field
cannot cause an error. Whatever the unused fields of S hold, S decodes to the same command, and its completion step ends
in the same next state, up to S itself, or in the same fault. -/
def Obligations.UnusedFieldsDoNotMatter : Prop :=
  ∀ (s : State) (k : Cmd) (am lm ad : BitVec 16),
    (((s.snap.op = 1 ∨ s.snap.op = 2 ∨ s.snap.op = 3) ∧ k = { s.snap with am := am, lm := lm, ad := ad }) ∨
      (s.snap.op = 4 ∧ k = { s.snap with am := am, lm := lm }) ∨
      ((s.snap.op = 5 ∨ s.snap.op = 6 ∨ s.snap.op = 7 ∨ s.snap.op = 8) ∧ k = { s.snap with ad := ad })) →
    decode k = decode s.snap ∧
    (∀ t, complete s = .next t → complete { s with snap := k } = .next { t with snap := k }) ∧
    ∀ f, complete s = .fault f → complete { s with snap := k } = .fault f

/-- Rules R82, R84 on words written out from the encodings of 95_test_vectors.md: P1, P2, P5, P3 and P6, and one each
of the other commands. -/
def Obligations.SampleRegisterWordsDecode : Prop :=
  decodeWords [0x1, 0x0, 0x2, 0x2, 0x2, 0x0, 0x0, 0x4, 0x0] =
      .command (.add { addr := 0, len := 2 } { addr := 2, len := 2 } 4) ∧
    decodeWords [0x4, 0x10, 0x4, 0x20, 0x3, 0x0, 0x0, 0x30, 0x40] =
      .command (.div { addr := 0x10, len := 4 } { addr := 0x20, len := 3 } 0x30 0x40) ∧
    decodeWords [0x3, 0x0, 0x2, 0x2, 0x2, 0x0, 0x0, 0x4, 0x0] =
      .command (.mul { addr := 0, len := 2 } { addr := 2, len := 2 } 4) ∧
    decodeWords [0x6, 0x100, 0x2, 0x102, 0x2, 0x104, 0x2, 0x106, 0x0] =
      .command (.modexp { addr := 0x100, len := 2 } { addr := 0x102, len := 2 } { addr := 0x104, len := 2 } 0x106) ∧
    decodeWords [0x8, 0x1, 0x1, 0x2, 0x1, 0x0, 0x1, 0x3, 0x0] =
      .command (.submod { addr := 1, len := 1 } { addr := 2, len := 1 } { addr := 0, len := 1 } 3) ∧
    decodeWords [0x13, 0x0, 0x2] = .command (.mul { addr := 0, len := 2 } { addr := 0, len := 0 } 0) ∧
    decodeWords [] = .reservedOp 0 ∧ decodeWords [0x9, 0x1] = .reservedOp 9

/-! ### The step -/

/-- 40_control.md rules R103, R108, R109 and the model's schedule (log 3): a due engine runs the decoded command of S,
a reserved OP ends in BAD_OPCODE, and an engine that is not due leaves the step to the host's next action. -/
def Obligations.StepRunsTheCapturedCommand : Prop :=
  ∀ s : State,
    (s.phase = .busy → (s.host = [] ∨ s.delay = 0) →
      (∀ i, decode s.snap = .command i → step s = exec i s) ∧
      (∀ op, decode s.snap = .reservedOp op → step s = .next (s.fail .badOpcode))) ∧
    (∀ act rest, s.host = act :: rest → (s.phase = .idle ∨ s.delay ≠ 0) → step s = hostStep act rest s) ∧
    (s.phase = .idle → s.host = [] → step s = .next s)

/-- The completion step depends on S, not on the live registers (40_control.md rule R102), and no command reads FLAG or
any other field of STATUS (10_state.md rule R27). -/
def Obligations.CompletionReadsTheSnapshotOnly : Prop :=
  ∀ (s t : State) (k : Cmd) (ie : Bool) (st : Status), complete s = .next t →
    complete { s with regs := k, doneIe := ie, status := st } = .next { t with regs := k, doneIe := ie }

/-- Nothing a command does depends on what an earlier command left in the working buffers (10_state.md rules R38,
R40). -/
def Obligations.WorkingBuffersDoNotCarryOver : Prop :=
  ∀ (s t : State) (w : Work), complete s = .next t →
    ∃ w', complete { s with work := w } = .next { t with work := w' }

/-! ### Results

The next states are named with `State.succeed` and `State.fail`, which also set the model's own countdown to 0 (log 3):
no rule of the spec speaks of it. The working buffers are left open here; CommandFrame speaks of them (log 7). -/

/-- 42_add_sub.md rule R171: a well-formed ADD on written operands completes, and sum and carry together are exact. -/
def Obligations.AddResultIsExact : Prop :=
  ∀ (a b : Src) (c : BitVec 16) (s : State) (va vb : BigNat),
    (Instr.add a b c).wellFormed s.cfg = true → s.holds a va → s.holds b vb →
    ∃ (w : Work) (v : Nat) (f : Bool),
      exec (.add a b c) s = .next (s.succeed [{ addr := c.toNat, len := a.len.toNat }]
        { values := [v], flag := f, work := w }) ∧
      v < radix ^ a.len.toNat ∧ v + f.toNat * radix ^ a.len.toNat = val va + val vb

/-- 42_add_sub.md rule R173: a well-formed SUB on written operands completes, and the difference is exact up to the
borrow. -/
def Obligations.SubResultIsExact : Prop :=
  ∀ (a b : Src) (c : BitVec 16) (s : State) (va vb : BigNat),
    (Instr.sub a b c).wellFormed s.cfg = true → s.holds a va → s.holds b vb →
    ∃ (w : Work) (v : Nat) (f : Bool),
      exec (.sub a b c) s = .next (s.succeed [{ addr := c.toNat, len := a.len.toNat }]
        { values := [v], flag := f, work := w }) ∧
      v < radix ^ a.len.toNat ∧ (v : Int) = val va - val vb + f.toNat * radix ^ a.len.toNat

/-- 43_multiply.md rule R192: a well-formed MUL on written operands completes with the exact product in LA + LB words
and FLAG 0. -/
def Obligations.MulResultIsExact : Prop :=
  ∀ (a b : Src) (c : BitVec 16) (s : State) (va vb : BigNat),
    (Instr.mul a b c).wellFormed s.cfg = true → s.holds a va → s.holds b vb →
    (∃ w : Work, exec (.mul a b c) s = .next (s.succeed [{ addr := c.toNat, len := a.len.toNat + b.len.toNat }]
        { values := [val va * val vb], flag := false, work := w })) ∧
      val va * val vb < radix ^ (a.len.toNat + b.len.toNat)

/-- 44_divide.md rule R210: a well-formed DIV on written operands whose divisor has more than one word and a non-zero top
word completes with the exact quotient and remainder; both fit their regions. -/
def Obligations.DivResultIsExact : Prop :=
  ∀ (x y : Src) (q r : BitVec 16) (s : State) (vx vy : BigNat),
    (Instr.div x y q r).wellFormed s.cfg = true → s.holds x vx → s.holds y vy →
    1 < y.len.toNat → wordAt vy (y.len.toNat - 1) ≠ 0 →
    ∃ (w : Work) (vq vr : Nat),
      exec (.div x y q r) s = .next (s.succeed
        [{ addr := q.toNat, len := x.len.toNat - y.len.toNat + 1 }, { addr := r.toNat, len := y.len.toNat }]
        { values := [vq, vr], flag := false, work := w }) ∧
      vq = val vx / val vy ∧ vr = val vx % val vy ∧ val vx = vq * val vy + vr ∧ vr < val vy ∧
      vq < radix ^ (x.len.toNat - y.len.toNat + 1) ∧ vr < radix ^ y.len.toNat

/-- 45_modular.md rule R231: a well-formed ADDMOD on written, reduced operands and a modulus with a non-zero top word
completes with the modular sum. -/
def Obligations.AddmodResultIsTheModularSum : Prop :=
  ∀ (a b p : Src) (c : BitVec 16) (s : State) (va vb vp : BigNat),
    (Instr.addmod a b p c).wellFormed s.cfg = true → s.holds a va → s.holds b vb → s.holds p vp →
    wordAt vp (p.len.toNat - 1) ≠ 0 → val va < val vp → val vb < val vp →
    ∃ (w : Work) (v : Nat), exec (.addmod a b p c) s = .next (s.succeed [{ addr := c.toNat, len := a.len.toNat }]
        { values := [v], flag := false, work := w }) ∧
      v = (val va + val vb) % val vp ∧ v < val vp ∧ v < radix ^ a.len.toNat

/-- 45_modular.md rule R233: a well-formed SUBMOD on written, reduced operands and a modulus with a non-zero top word
completes with the modular difference. -/
def Obligations.SubmodResultIsTheModularDifference : Prop :=
  ∀ (a b p : Src) (c : BitVec 16) (s : State) (va vb vp : BigNat),
    (Instr.submod a b p c).wellFormed s.cfg = true → s.holds a va → s.holds b vb → s.holds p vp →
    wordAt vp (p.len.toNat - 1) ≠ 0 → val va < val vp → val vb < val vp →
    ∃ (w : Work) (v : Nat), exec (.submod a b p c) s = .next (s.succeed [{ addr := c.toNat, len := a.len.toNat }]
        { values := [v], flag := false, work := w }) ∧
      (v : Int) = ((val va : Int) - val vb) % val vp ∧ v < val vp ∧ v < radix ^ a.len.toNat

/-- 45_modular.md rule R235: a well-formed MODMUL on written, reduced operands and a modulus of more than one word with
a non-zero top word completes with the modular product. -/
def Obligations.ModmulResultIsTheModularProduct : Prop :=
  ∀ (a b p : Src) (c : BitVec 16) (s : State) (va vb vp : BigNat),
    (Instr.modmul a b p c).wellFormed s.cfg = true → s.holds a va → s.holds b vb → s.holds p vp →
    1 < p.len.toNat → wordAt vp (p.len.toNat - 1) ≠ 0 → val va < val vp → val vb < val vp →
    ∃ (w : Work) (v : Nat), exec (.modmul a b p c) s = .next (s.succeed [{ addr := c.toNat, len := a.len.toNat }]
        { values := [v], flag := false, work := w }) ∧
      v = val va * val vb % val vp ∧ v < radix ^ a.len.toNat

/-- 46_modexp.md rule R252: a well-formed MODEXP on written operands, a reduced base and a modulus of more than one
word with a non-zero top word completes with g^e mod p, where g^0 = 1; and the iteration for bit i keeps the rule's loop
invariant. -/
def Obligations.ModexpResultIsThePower : Prop :=
  (∀ (g e p : Src) (c : BitVec 16) (s : State) (vg ve vp : BigNat),
    (Instr.modexp g e p c).wellFormed s.cfg = true → s.holds g vg → s.holds e ve → s.holds p vp →
    1 < p.len.toNat → wordAt vp (p.len.toNat - 1) ≠ 0 → val vg < val vp →
    ∃ (w : Work) (v : Nat), exec (.modexp g e p c) s = .next (s.succeed [{ addr := c.toNat, len := p.len.toNat }]
        { values := [v], flag := false, work := w }) ∧
      v = val vg ^ val ve % val vp ∧ v < radix ^ p.len.toNat) ∧
  ∀ (g e p : BigNat) (i : Nat) (st : BigNat × Work), g.length = p.length → st.1.length = p.length →
    1 < p.length → wordAt p (p.length - 1) ≠ 0 → val st.1 = val g ^ (val e / 2 ^ (i + 1)) % val p →
    ∃ st', expBit g e p i st = .ok st' ∧ st'.1.length = p.length ∧ val st'.1 = val g ^ (val e / 2 ^ i) % val p

/-- 46_modexp.md rule R254: an all-zero exponent is legal and the result region reads 1, whatever the base. -/
def Obligations.ModexpZeroExponentGivesOne : Prop :=
  ∀ (g e p : Src) (c : BitVec 16) (s : State) (vg ve vp : BigNat),
    (Instr.modexp g e p c).wellFormed s.cfg = true → s.holds g vg → s.holds e ve → s.holds p vp →
    1 < p.len.toNat → wordAt vp (p.len.toNat - 1) ≠ 0 → val vg < val vp → (∀ w ∈ ve, w = 0) →
    ∃ t, exec (.modexp g e p c) s = .next t ∧ t.status = Status.ofSuccess false ∧ t.mem.read c.toNat = some 1 ∧
      ∀ k, 1 ≤ k → k < p.len.toNat → t.mem.read (c.toNat + k) = some 0

/-- 42_add_sub.md rule R174: an ADD followed by a SUB of the same b from its result gives a again, with the same
FLAG. -/
def Obligations.AddThenSubRestores : Prop :=
  ∀ (a b b' : Src) (c d : BitVec 16) (s t : State) (va vb : BigNat),
    (Instr.add a b c).wellFormed s.cfg = true → s.holds a va → s.holds b vb → exec (.add a b c) s = .next t →
    (Instr.sub { addr := c, len := a.len } b' d).wellFormed s.cfg = true → t.holds b' vb →
    ∃ u, exec (.sub { addr := c, len := a.len } b' d) t = .next u ∧ u.holds { addr := d, len := a.len } va ∧
      u.status.flag = t.status.flag ∧ u.status.err = false

/-- 45_modular.md rule R236: whatever a modular add, subtract or multiply that succeeded wrote lies below the
modulus. -/
def Obligations.ModularResultsAreReduced : Prop :=
  ∀ (i : Instr) (a b p : Src) (c : BitVec 16) (s t : State) (vp : BigNat),
    (i = .addmod a b p c ∨ i = .submod a b p c ∨ i = .modmul a b p c) → s.holds p vp →
    exec i s = .next t → t.status.err = false →
    ∃ vc, t.holds { addr := c, len := a.len } vc ∧ val vc < val vp

/-- 44_divide.md rule R200: where the result regions of a DIV overlap, the overlapped words hold remainder words, and
every other quotient word is in place. -/
def Obligations.DivRemainderWinsWhereRegionsOverlap : Prop :=
  ∀ (x y : Src) (q r : BitVec 16) (s t : State) (vx vy : BigNat),
    s.holds x vx → s.holds y vy → exec (.div x y q r) s = .next t → t.status.err = false →
    (∀ k < y.len.toNat, t.mem.read (r.toNat + k) = some (wordOf (val vx % val vy) k)) ∧
    ∀ k < x.len.toNat - y.len.toNat + 1,
      (q.toNat + k < r.toNat ∨ r.toNat + y.len.toNat ≤ q.toNat + k) →
      t.mem.read (q.toNat + k) = some (wordOf (val vx / val vy) k)

/-! ### The digits of a division -/

/-- 44_divide.md rule R209: at a quotient position entered as rule R203 says, the true digit fits a word, the trial digit
is at least it and at most b - 1, the corrected digit is it or one more, and multiplying back writes exactly it, with at
most one add-back, and leaves the remainder by y · b^j, which is below y · b^j. (The bound floor(X3 / Y2) ≤ b - 1 inside
the rule's argument is no part of this statement.) -/
def Obligations.DivisionDigitIsExact : Prop :=
  ∀ (y : BigNat) (j : Nat) (st : DivState), DigitEntry st.x y j →
    trueDigit st.x y j ≤ radix - 1 ∧
    ∃ qh qc : Word,
      trialDigit st.x y (j + y.length) = .ok qh ∧ trueDigit st.x y j ≤ qh.toNat ∧ qh.toNat ≤ radix - 1 ∧
      correctDigit st.x y (j + y.length) qh = .ok qc ∧
      trueDigit st.x y j ≤ qc.toNat ∧ qc.toNat ≤ trueDigit st.x y j + 1 ∧
      ∃ st' : DivState, multiplyBack y st.x.length j qc st = st' ∧ divDigit y st.x.length j st = .ok st' ∧
        st'.q = st.q.set j (BitVec.ofNat 16 (trueDigit st.x y j)) ∧
        (val st'.x + qc.toNat * (val y * radix ^ j) = val st.x ∨
          val st'.x + qc.toNat * (val y * radix ^ j) = val st.x + val y * radix ^ j) ∧
        val st'.x = val st.x % (val y * radix ^ j) ∧ val st'.x < val y * radix ^ j

/-- 44_divide.md rules R202, R203: step 1 ends, below the cap, in what the first quotient position needs on entry, and each
position leaves what the next one needs. -/
def Obligations.DivisionEntryIsEstablishedAndKept : Prop :=
  (∀ (x y : BigNat) (st : DivState), divisorOk y = true → y.length ≤ x.length → st.x = x →
    ∃ st', topDigit y x.length st = .ok st' ∧ st'.x.length = x.length ∧
      val st'.x < val y * radix ^ (x.length - y.length) ∧
      (y.length < x.length → DigitEntry st'.x y (x.length - y.length - 1))) ∧
  ∀ (y : BigNat) (j : Nat) (st st' : DivState), DigitEntry st.x y (j + 1) →
    divDigit y st.x.length (j + 1) st = .ok st' → DigitEntry st'.x y j

/-! ### Errors -/

/-- 30_encoding.md rule R85, 40_control.md rule R103: every command with an illegal length ends in LENGTH. -/
def Obligations.IllegalLengthsEndInLength : Prop :=
  ∀ (i : Instr) (s : State), i.lengthsLegal s.cfg = false → exec i s = .next (s.fail .length)

/-- 40_control.md rule R104: every command with legal lengths and a region outside OPMEM ends in BOUNDS, whatever OPMEM
holds. -/
def Obligations.RegionsOutsideEndInBounds : Prop :=
  ∀ (i : Instr) (s : State), i.lengthsLegal s.cfg = true → i.regionsInside s.cfg = false →
    exec i s = .next (s.fail .bounds)

/-- 40_control.md rule R105: the divisor conditions of every command that has them; ADD, SUB and MUL never end in
DIVISOR. -/
def Obligations.InvalidDivisorsEndInDivisor : Prop :=
  (∀ (x y : Src) (q r : BitVec 16) (s : State) (vx vy : BigNat),
    (Instr.div x y q r).wellFormed s.cfg = true → s.holds x vx → s.holds y vy →
    (y.len.toNat ≤ 1 ∨ wordAt vy (y.len.toNat - 1) = 0) →
    exec (.div x y q r) s = .next (s.fail .divisor)) ∧
  (∀ (i : Instr) (a b p : Src) (c : BitVec 16) (s : State) (va vb vp : BigNat),
    i = .modmul a b p c ∨ i = .modexp a b p c → i.wellFormed s.cfg = true →
    s.holds a va → s.holds b vb → s.holds p vp →
    (p.len.toNat ≤ 1 ∨ wordAt vp (p.len.toNat - 1) = 0) → exec i s = .next (s.fail .divisor)) ∧
  (∀ (i : Instr) (a b p : Src) (c : BitVec 16) (s : State) (va vb vp : BigNat),
    i = .addmod a b p c ∨ i = .submod a b p c → i.wellFormed s.cfg = true →
    s.holds a va → s.holds b vb → s.holds p vp →
    wordAt vp (p.len.toNat - 1) = 0 → exec i s = .next (s.fail .divisor)) ∧
  ∀ (i : Instr) (a b : Src) (c : BitVec 16) (s t : State), i = .add a b c ∨ i = .sub a b c ∨ i = .mul a b c →
    exec i s = .next t → t.status.errcode ≠ ErrCode.divisor.bits

/-- 40_control.md rule R106: a modular operand that is not below a valid modulus ends the command in RANGE; ADD, SUB,
MUL and DIV never end in it. -/
def Obligations.UnreducedOperandsEndInRange : Prop :=
  (∀ (i : Instr) (a b p : Src) (c : BitVec 16) (s : State) (va vb vp : BigNat),
    (i = .modmul a b p c ∧ 1 < p.len.toNat) ∨ i = .addmod a b p c ∨ i = .submod a b p c → i.wellFormed s.cfg = true →
    s.holds a va → s.holds b vb → s.holds p vp → wordAt vp (p.len.toNat - 1) ≠ 0 →
    (val vp ≤ val va ∨ val vp ≤ val vb) → exec i s = .next (s.fail .range)) ∧
  (∀ (g e p : Src) (c : BitVec 16) (s : State) (vg ve vp : BigNat),
    (Instr.modexp g e p c).wellFormed s.cfg = true → s.holds g vg → s.holds e ve → s.holds p vp →
    1 < p.len.toNat → wordAt vp (p.len.toNat - 1) ≠ 0 → val vp ≤ val vg →
    exec (.modexp g e p c) s = .next (s.fail .range)) ∧
  ∀ (i : Instr) (a b : Src) (c d : BitVec 16) (s t : State),
    i = .add a b c ∨ i = .sub a b c ∨ i = .mul a b c ∨ i = .div a b c d →
    exec i s = .next t → t.status.errcode ≠ ErrCode.range.bits

/-- 10_state.md rule R31: after reset no word holds a value; a host read of such a word while IDLE is a fault, and so is
a command that passed its LENGTH and BOUNDS checks and whose input region holds one. -/
def Obligations.UnwrittenWordsFault : Prop :=
  (∀ (cfg : Config) (a : Nat), (State.resetWith cfg).mem.read a = none) ∧
  (∀ (s : State) (a : Nat), a < s.cfg.memWords → s.phase = .idle → s.mem.read a = none →
    hostMemRead a s = .fault (.unwrittenWord a)) ∧
  ∀ (i : Instr) (s : State) (x : Src), i.wellFormed s.cfg = true → x ∈ sources i → s.unwrittenIn x →
    ∃ a, exec i s = .fault (.unwrittenWord a) ∧ s.mem.read a = none

/-- 60_exceptions.md rule R305 with the codes of rule R301: a completion step that ends in an error is the error entry
`fail` of one code; that entry sets STATUS to its word, the engine is idle, irq follows DONE_IE, and nothing else of the
block changes. -/
def Obligations.ErrorEntrySetsStatusAlone : Prop :=
  (∀ s t : State, complete s = .next t → t.status.err = true → ∃ e : ErrCode, t = s.fail e) ∧
  (∀ (s : State) (e : ErrCode),
    (s.fail e).statusWord = (e.bits.setWidth 32 <<< 8) ||| 0x6#32 ∧ (s.fail e).phase = .idle ∧
      (s.fail e).irq = s.doneIe ∧ (s.fail e).mem = s.mem ∧ (s.fail e).regs = s.regs ∧ (s.fail e).cfg = s.cfg ∧
      (s.fail e).doneIe = s.doneIe ∧ (s.fail e).snap = s.snap ∧ (s.fail e).work = s.work) ∧
  ([ErrCode.badOpcode, .length, .bounds, .divisor, .range, .divZero, .noConverge].map fun e => e.bits.toNat) =
    [1, 2, 3, 4, 5, 6, 7]

/-- 60_exceptions.md rules R305, R306: a completion step that ends in an error changes no OPMEM word, no register but
STATUS, and not S. That it leaves the working buffers too is the model's choice (log 7). -/
def Obligations.ErroringCommandsWriteNothing : Prop :=
  ∀ s t : State, complete s = .next t → t.status.err = true →
    t.mem = s.mem ∧ t.regs = s.regs ∧ t.doneIe = s.doneIe ∧ t.cfg = s.cfg ∧ t.work = s.work ∧ t.snap = s.snap

/-- 40_control.md rule R108, 10_state.md rule R26, 60_exceptions.md rules R301, R310: after every completion step the
engine is idle, STATUS is (flag << 3) | 2 or (code << 8) | 6 with a code from 1 to 7, and irq follows DONE_IE. -/
def Obligations.CompletionStatusWord : Prop :=
  ∀ s t : State, complete s = .next t →
    t.phase = .idle ∧ t.irq = s.doneIe ∧
      ((∃ f : Bool, t.statusWord = (bitWord f 3 ||| 0x2#32) ∧ t.status.err = false) ∨
        ∃ code : BitVec 4, 1 ≤ code.toNat ∧ code.toNat ≤ 7 ∧ t.statusWord = (code.setWidth 32 <<< 8) ||| 0x6#32 ∧
          t.mem = s.mem)

/-- 10_state.md rule R27: only a successful ADD or SUB leaves FLAG set. -/
def Obligations.FlagIsSetByAddAndSubOnly : Prop :=
  ∀ s t : State, complete s = .next t → t.status.flag = true →
    t.status.err = false ∧ ∃ (a b : Src) (c : BitVec 16),
      decode s.snap = .command (.add a b c) ∨ decode s.snap = .command (.sub a b c)

/-- 44_divide.md rule R211, 41_primitives.md rule R141: no completion step ends in DIV_ZERO or NO_CONVERGE. -/
def Obligations.DivisionErrorsAreUnreachable : Prop :=
  ∀ s t : State, complete s = .next t →
    t.status.errcode ≠ ErrCode.divZero.bits ∧ t.status.errcode ≠ ErrCode.noConverge.bits

/-! ### Frames and invariants -/

/-- 20_memory.md rule R75, 40_control.md rule R108: what the completion step of every command leaves unchanged: every
register but STATUS, the snapshot, the model's own fields but the countdown, and every word of OPMEM outside the
command's result regions. -/
def Obligations.CommandFrame : Prop :=
  ∀ (i : Instr) (s t : State), exec i s = .next t →
    t.cfg = s.cfg ∧ t.regs = s.regs ∧ t.doneIe = s.doneIe ∧ t.snap = s.snap ∧ t.draws = s.draws ∧
      t.reply = s.reply ∧ t.host = s.host ∧
      (∀ a, (∀ r ∈ results i, r.has a = false) → t.mem.read a = s.mem.read a) ∧
      ((match i with
        | .add _ _ _ => True
        | .sub _ _ _ => True
        | .mul _ _ _ => True
        | .addmod _ _ _ _ => True
        | .submod _ _ _ _ => True
        | .div _ _ _ _ => False
        | .modmul _ _ _ _ => False
        | .modexp _ _ _ _ => False) → t.work = s.work)

/-- 70_reset_and_hazards.md rule R355: a successful command writes one value to each of its result regions, in order,
every word of the region, with the lengths of 30_encoding.md rule R84. -/
def Obligations.ResultRegionsAreWrittenWhole : Prop :=
  (∀ (i : Instr) (s t : State), exec i s = .next t → t.status.err = false →
    ∃ vs : List Nat, vs.length = (results i).length ∧ t.mem = s.mem.storeResults (results i) vs) ∧
  (∀ (m : Mem) (a n v b : Nat), (m.writeValue a n v).read b =
    if a ≤ b ∧ b < a + n then some (wordOf v (b - a)) else m.read b) ∧
  (∀ (a b p x y : Src) (c q r : BitVec 16),
    results (.add a b c) = [{ addr := c.toNat, len := a.len.toNat }] ∧
    results (.sub a b c) = [{ addr := c.toNat, len := a.len.toNat }] ∧
    results (.mul a b c) = [{ addr := c.toNat, len := a.len.toNat + b.len.toNat }] ∧
    results (.div x y q r) = [{ addr := q.toNat, len := x.len.toNat - y.len.toNat + 1 },
      { addr := r.toNat, len := y.len.toNat }] ∧
    results (.modmul a b p c) = [{ addr := c.toNat, len := a.len.toNat }] ∧
    results (.modexp a b p c) = [{ addr := c.toNat, len := p.len.toNat }] ∧
    results (.addmod a b p c) = [{ addr := c.toNat, len := a.len.toNat }] ∧
    results (.submod a b p c) = [{ addr := c.toNat, len := a.len.toNat }])

/-- The invariant of Safety.lean (10_state.md rules R26, R30, R40; 60_exceptions.md rule R301) is kept by every step. -/
def Obligations.EveryStepKeepsTheInvariant : Prop :=
  ∀ s t : State, s.Inv → step s = .next t → t.Inv

/-- The invariant holds after reset, for all legal parameters and for the defaults (10_state.md rule R41). -/
def Obligations.InvariantHoldsAfterReset : Prop :=
  (∀ cfg : Config, cfg.legal = true → (State.resetWith cfg).Inv) ∧ State.reset.Inv

/-- 10_state.md rules R23, R24: the configuration registers hold one value at all times, including reset. -/
def Obligations.ConfigurationRegistersAreConstant : Prop :=
  (∀ s t : State, step s = .next t →
    t.readReg .cfg0 = s.readReg .cfg0 ∧ t.readReg .cfg1 = s.readReg .cfg1 ∧ t.cfg = s.cfg) ∧
  ∀ s : State, s.cfg.legal = true →
    (s.readReg .cfg0).toNat = 16 + 256 * s.cfg.nmax ∧ (s.readReg .cfg1).toNat = s.cfg.memWords

/-- 10_state.md rule R32: a step changes an OPMEM word only by a host write while BUSY = 0, by the results of a
successful completion step, or by reset. -/
def Obligations.OnlyHostAndEngineChangeOpmem : Prop :=
  ∀ (s t : State) (a : Nat), step s = .next t → t.mem.read a ≠ s.mem.read a →
    (s.phase = .idle ∧ ∃ v rest, s.host = .memWrite a v :: rest ∧ t.mem.read a = some v) ∨
    (s.phase = .busy ∧ t.status.err = false ∧ ∃ i, decode s.snap = .command i ∧ ∃ r ∈ results i, r.has a = true) ∨
    (∃ rest, s.host = .reset :: rest ∧ t.mem = [])

/-- 20_memory.md rule R73: while a command runs and its completion step is not due, no step but a reset changes an
OPMEM word or the snapshot, and the command goes on running. -/
def Obligations.RunningCommandIsUndisturbed : Prop :=
  ∀ s t : State, s.phase = .busy → s.host ≠ [] → s.delay ≠ 0 → (∀ rest, s.host ≠ .reset :: rest) →
    step s = .next t →
    t.mem = s.mem ∧ t.snap = s.snap ∧ t.phase = .busy ∧ t.status = s.status ∧ t.work = s.work ∧ t.delay + 1 = s.delay

/-- No step refuses, and the engine faults only at an input word that holds no value (10_state.md rule R31,
60_exceptions.md rule R304). -/
def Obligations.StepsNeverRefuse : Prop :=
  ∀ s : State, (∀ r, step s ≠ .refused r) ∧
    ∀ f, complete s = .fault f → ∃ i a x, decode s.snap = .command i ∧ x ∈ sources i ∧ f = .unwrittenWord a ∧
      x.addr.toNat ≤ a ∧ a < x.addr.toNat + x.len.toNat ∧ s.mem.read a = none

/-! ### The host port -/

/-- 40_control.md rules R101, R102: a START while IDLE captures the command registers, and STATUS reads 1; everything
else of the block is unchanged. -/
def Obligations.StartCapturesTheCommand : Prop :=
  ∀ (s : State) (v : Word32), s.phase = .idle → v.getLsbD 0 = true →
    ∃ t, hostRegWrite 0x08 v s = .next t ∧ t.phase = .busy ∧ t.statusWord = 0x1#32 ∧ t.irq = false ∧
      t.snap = s.regs ∧ t.regs = s.regs ∧ t.mem = s.mem ∧ t.cfg = s.cfg ∧ t.doneIe = s.doneIe ∧ t.work = s.work ∧
      t.reply = s.reply ∧ t.host = s.host

/-- 70_reset_and_hazards.md rule R350, 40_control.md rules R100, R110, R111: every CTRL write while BUSY is ignored. -/
def Obligations.CtrlWritesWhileBusyAreIgnored : Prop :=
  ∀ (s : State) (v : Word32), s.phase = .busy → hostRegWrite 0x08 v s = .next s

/-- 40_control.md rule R110: a CLEAR without START while IDLE makes STATUS 0 and drops irq; nothing else changes. While
BUSY it is ignored. A CTRL write of neither bit changes nothing. -/
def Obligations.ClearZeroesStatus : Prop :=
  ∀ (s : State) (v : Word32), v.getLsbD 0 = false →
    (s.phase = .idle → v.getLsbD 1 = true →
      ∃ t, hostRegWrite 0x08 v s = .next t ∧ t.statusWord = 0#32 ∧ t.irq = false ∧ t = { s with status := t.status }) ∧
    (s.phase = .busy → hostRegWrite 0x08 v s = .next s) ∧
    (v.getLsbD 1 = false → hostRegWrite 0x08 v s = .next s)

/-- 40_control.md rule R111: a CTRL write with both bits equals START alone while IDLE. -/
def Obligations.ClearAndStartEqualsStart : Prop :=
  ∀ s : State, (s.phase = .idle → hostRegWrite 0x08 0x3#32 s = hostRegWrite 0x08 0x1#32 s) ∧
    (s.phase = .busy → hostRegWrite 0x08 0x3#32 s = .next s)

/-- 10_state.md rule R29, 70_reset_and_hazards.md rule R353: a command register keeps its field's bits of a write, reads
back with reserved bits 0, and the write changes no other register, nor the running command, while IDLE and while
BUSY. -/
def Obligations.CommandRegistersKeepTheirField : Prop :=
  ∀ (s : State) (v : Word32) (off : Nat) (mask : Word32),
    (off, mask) ∈ [(0x14, 0xF#32), (0x18, 0xFFFF#32), (0x1C, 0xFFFF#32), (0x20, 0xFFFF#32), (0x24, 0xFFFF#32),
      (0x28, 0xFFFF#32), (0x2C, 0xFFFF#32), (0x30, 0xFFFF#32), (0x34, 0xFFFF#32)] →
    ∃ t r, hostRegWrite off v s = .next t ∧ Reg.ofOffset off = some r ∧ t.readReg r = v &&& mask ∧
      (∀ r', r' ≠ r → t.readReg r' = s.readReg r') ∧ t = { s with regs := t.regs }

/-- 10_state.md rules R28, R36: an INTEN write stores bit 0, reads back with the other bits 0, and takes effect on irq
at once; nothing else changes. -/
def Obligations.IntenTakesEffectAtOnce : Prop :=
  ∀ (s : State) (v : Word32), ∃ t, hostRegWrite 0x10 v s = .next t ∧ t.readReg .inten = v &&& 0x1#32 ∧
    t.irq = (s.status.done && v.getLsbD 0) ∧ t = { s with doneIe := t.doneIe }

/-- 20_memory.md rule R62, 93_implementation_defined.md U4: exactly the offsets that are multiples of 4 up to 0x3C are
decoded; any other access to the register space, and an OPMEM access at or above MEM_WORDS, is a fault. -/
def Obligations.UndecodedAccessesFault : Prop :=
  (∀ (off : Nat) (v : Word32) (s : State),
    (off % 4 = 0 ∧ off ≤ 0x3C → (∃ t, hostRegRead off s = .next t) ∧ ∃ t, hostRegWrite off v s = .next t) ∧
    (¬ (off % 4 = 0 ∧ off ≤ 0x3C) →
      hostRegRead off s = .fault (.undecodedReg off) ∧ hostRegWrite off v s = .fault (.undecodedReg off))) ∧
  (∀ (off bits : Nat) (rest : List HostAction) (s : State),
    hostStep (.regNarrow off bits) rest s = .fault (.narrowReg off bits)) ∧
  ∀ (a : Nat) (v : Word) (s : State), s.cfg.memWords ≤ a →
    hostMemRead a s = .fault (.undecodedMem a) ∧ hostMemWrite a v s = .fault (.undecodedMem a)

/-- 20_memory.md rule R62: CTRL and the reserved offsets read 0; writes to CFG0, CFG1, STATUS and the reserved offsets
are ignored. -/
def Obligations.ReadOnlyAndReservedRegisters : Prop :=
  ∀ (s : State) (v : Word32),
    (∀ off ∈ [0x08, 0x38, 0x3C], hostRegRead off s = .next { s with reply := .reg 0#32 }) ∧
    ∀ off ∈ [0x00, 0x04, 0x0C, 0x38, 0x3C], hostRegWrite off v s = .next s

/-- 20_memory.md rule R68: a register or OPMEM read changes nothing of the block, and repeated at once while IDLE it
answers the same. What changes are the model's own fields: the reply (log 5) and the counter of free values (log 4). -/
def Obligations.ReadsHaveNoSideEffect : Prop :=
  (∀ (off : Nat) (s t : State), hostRegRead off s = .next t →
    t = { s with reply := t.reply } ∧ hostRegRead off t = .next t) ∧
  ∀ (a : Nat) (s t : State), hostMemRead a s = .next t →
    t = { s with reply := t.reply, draws := t.draws } ∧ (s.phase = .idle → hostMemRead a t = .next t)

/-- 20_memory.md rule R61: while IDLE a host write below MEM_WORDS stores its word, a host read of it answers that
word, and every other word reads as before. -/
def Obligations.HostWriteThenRead : Prop :=
  ∀ (s : State) (a : Nat) (v : Word), s.phase = .idle → a < s.cfg.memWords →
    ∃ t, hostMemWrite a v s = .next t ∧ hostMemRead a t = .next { t with reply := .word v } ∧
      (∀ b, b ≠ a → t.mem.read b = s.mem.read b) ∧ t = { s with mem := t.mem }

/-- 20_memory.md rule R63, 70_reset_and_hazards.md rule R351: while BUSY a host write below MEM_WORDS changes nothing,
and a host read answers some word and changes nothing else of the block. That it advances the model's counter of free
values is the model's choice (log 4). -/
def Obligations.OpmemIsFrozenWhileBusy : Prop :=
  ∀ (s : State) (a : Nat) (v : Word), s.phase = .busy → a < s.cfg.memWords →
    hostMemWrite a v s = .next s ∧
      ∃ w, hostMemRead a s = .next { s with reply := .word w, draws := s.draws + 1 }

/-- 20_memory.md rule R70: once a command's completion step has succeeded, a host read of any word of its result regions
answers the word stored there. -/
def Obligations.ResultsAreReadableAfterCompletion : Prop :=
  ∀ (s t : State) (i : Instr), complete s = .next t → decode s.snap = .command i → t.status.err = false →
    ∀ r ∈ results i, ∀ a, r.has a = true →
      ∃ w, t.mem.read a = some w ∧ hostMemRead a t = .next { t with reply := .word w }

/-! ### Reset, progress, and the pseudo-instructions -/

/-- 70_reset_and_hazards.md rules R340, R341: reset, whatever the block was doing, makes every register 0 but the
configuration, the engine idle, irq 0, and every OPMEM word hold no value; a running command is abandoned. That the host's
later actions stay is the model's choice (log 9). -/
def Obligations.ResetAbandonsEverything : Prop :=
  ∀ (s : State) (rest : List HostAction), ∃ t, hostStep .reset rest s = .next t ∧
    t.phase = .idle ∧ t.irq = false ∧ (∀ a, t.mem.read a = none) ∧ t.cfg = s.cfg ∧ t.host = rest ∧
    (∀ r, r ≠ .cfg0 → r ≠ .cfg1 → t.readReg r = 0#32) ∧
    t.readReg .cfg0 = s.readReg .cfg0 ∧ t.readReg .cfg1 = s.readReg .cfg1

/-- 10_state.md rule R41: after reset every register reads 0 but CFG0 and CFG1, the engine is idle, irq is 0 and no OPMEM
word holds a value, at all legal parameters; and CFG0 and CFG1 at the defaults of 00_scope.md rule R8. -/
def Obligations.RegistersAfterReset : Prop :=
  (∀ cfg : Config, cfg.legal = true →
    (∀ off ∈ [0x08, 0x0C, 0x10, 0x14, 0x18, 0x1C, 0x20, 0x24, 0x28, 0x2C, 0x30, 0x34, 0x38, 0x3C],
      hostRegRead off (State.resetWith cfg) = .next { State.resetWith cfg with reply := .reg 0#32 }) ∧
    ((State.resetWith cfg).readReg .cfg0).toNat = 16 + 256 * cfg.nmax ∧
    ((State.resetWith cfg).readReg .cfg1).toNat = cfg.memWords ∧
    (State.resetWith cfg).phase = .idle ∧ (State.resetWith cfg).irq = false ∧
    ∀ a, (State.resetWith cfg).mem.read a = none) ∧
  State.reset = State.resetWith { nmax := 64, memWords := 4096 } ∧
  hostRegRead 0x00 State.reset = .next { State.reset with reply := .reg 0x4010#32 } ∧
  hostRegRead 0x04 State.reset = .next { State.reset with reply := .reg 0x1000#32 }

/-- 40_control.md rule R100 and 95_test_vectors.md V-CTL-1: a START written straight after reset ends in BAD_OPCODE and
writes no OPMEM word, at any parameters. That two steps lead there is the model's choice: the host's list gives one access a
step (log 5), and with none pending the engine moves at once, whatever the latency (log 3). -/
def Obligations.StartAfterResetIsBadOpcode : Prop :=
  ∀ cfg : Config, ∃ t, runSteps 2 { State.resetWith cfg with host := [.regWrite 0x08 0x1#32] } = .next t ∧
    t.statusWord = 0x106#32 ∧ t.mem = []

/-- 40_control.md rule R109, 92_eei_decisions.md D17, with the model's countdown (log 3): a host that waits gets the
completion step of the running command, on the same OPMEM and snapshot, after as many polls as the latency left. -/
def Obligations.WaitingReachesCompletion : Prop :=
  ∀ (s : State) (rest : List HostAction), s.phase = .busy → s.host = .wait :: rest →
    ∃ s', runSteps (s.delay + 1) s = complete s' ∧
      s' = { s with delay := 0, reply := s'.reply } ∧
      (s.delay ≠ 0 → s'.reply = .reg s.statusWord)

/-- 30_encoding.md rule R88: the host writes of MWV, issued while IDLE inside OPMEM, store the value in its region, one
access each, and leave every register. That an access is one step is the model's choice (log 5). -/
def Obligations.MwvStoresTheValue : Prop :=
  ∀ (s : State) (a n v : Nat) (rest : List HostAction), s.phase = .idle → a + n ≤ s.cfg.memWords →
    s.host = mwv a n v ++ rest →
    ∃ t, runSteps n s = .next t ∧ t.mem = s.mem.writeValue a n v ∧ t.host = rest ∧ t.phase = .idle ∧
      t.regs = s.regs ∧ t.status = s.status ∧ t.doneIe = s.doneIe ∧ t.cfg = s.cfg

/-- 30_encoding.md rule R89 with 40_control.md rules R102, R109: from any idle state, a host that issues the expansion
of a command reaches exactly that command's completion step, on the OPMEM it started from, with WAIT still pending. The
schedule is the model's choice: one access a step (log 5), and a countdown between START and completion (log 3). -/
def Obligations.ExpansionRunsItsCommand : Prop :=
  ∀ (s : State) (i : Instr) (rest : List HostAction), s.phase = .idle → s.host = expand i ++ rest →
    ∃ (k : Nat) (s' : State), runSteps k s = exec i s' ∧ decode s'.snap = .command i ∧ s'.mem = s.mem ∧
      s'.cfg = s.cfg ∧ s'.doneIe = s.doneIe ∧ s'.work = s.work ∧ s'.phase = .busy ∧ s'.status = Status.zero ∧
      s'.host = .wait :: rest
end

