-- ==== Sys2Proof/Laws/Arith.lean ====
section
/-! SUPPORT. What each datapath primitive of Machine/Arith.lean computes, once: values, lengths and carries
(41_primitives.md). -/

namespace Sys2Proof.Machine

/-! ### Values -/

@[simp] theorem val_nil : val [] = 0 := rfl

@[simp] theorem val_cons (w : Word) (ws : BigNat) : val (w :: ws) = w.toNat + radix * val ws := rfl

theorem val_lt (a : BigNat) : val a < radix ^ a.length := by
  induction a with
  | nil => simp
  | cons w ws ih =>
    have hw := w.isLt
    simp only [val_cons, List.length_cons, pow_succ]
    have : val ws + 1 ≤ radix ^ ws.length := ih
    nlinarith

theorem val_append (a b : BigNat) : val (a ++ b) = val a + radix ^ a.length * val b := by
  induction a with
  | nil => simp
  | cons w ws ih => simp only [List.cons_append, val_cons, List.length_cons, ih, pow_succ]; ring

@[simp] theorem val_zeroWords (n : Nat) : val (zeroWords n) = 0 := by
  induction n with
  | zero => rfl
  | succ n ih => simpa [zeroWords, List.replicate_succ] using ih

@[simp] theorem length_zeroWords (n : Nat) : (zeroWords n).length = n := by simp [zeroWords]

/-- A value is cut at word `k` into its low words and the rest. -/
theorem val_take_drop (a : BigNat) (k : Nat) (h : k ≤ a.length) :
    val a = val (a.take k) + radix ^ k * val (a.drop k) := by
  conv_lhs => rw [← List.take_append_drop k a, val_append]
  simp [h]

theorem val_take (a : BigNat) (k : Nat) : val (a.take k) = val a % radix ^ k := by
  rcases Nat.lt_or_ge a.length k with h | h
  · rw [List.take_of_length_le h.le, Nat.mod_eq_of_lt]
    exact (val_lt a).trans_le (Nat.pow_le_pow_right (by decide) h.le)
  · have hlt := val_lt (a.take k)
    rw [List.length_take, min_eq_left h] at hlt
    rw [val_take_drop a k h, Nat.add_mul_mod_self_left, Nat.mod_eq_of_lt hlt]

theorem val_drop (a : BigNat) (k : Nat) : val (a.drop k) = val a / radix ^ k := by
  rcases Nat.lt_or_ge a.length k with h | h
  · rw [List.drop_of_length_le h.le, Nat.div_eq_of_lt]
    · rfl
    · exact (val_lt a).trans_le (Nat.pow_le_pow_right (by decide) h.le)
  · have hlt := val_lt (a.take k)
    rw [List.length_take, min_eq_left h] at hlt
    rw [val_take_drop a k h, Nat.add_mul_div_left _ _ (by positivity), Nat.div_eq_of_lt hlt, Nat.zero_add]

theorem val_take_succ (a : BigNat) (k : Nat) (h : k < a.length) :
    val (a.take (k + 1)) = val (a.take k) + radix ^ k * (wordAt a k).toNat := by
  rw [List.take_add_one, val_append, List.length_take, min_eq_left h.le]
  simp [wordAt, List.getD, h]

/-- Word `k` is digit `k` of the value; beyond the length it is 0. -/
theorem wordAt_toNat (a : BigNat) (k : Nat) : (wordAt a k).toNat = val a / radix ^ k % radix := by
  rcases Nat.lt_or_ge k a.length with h | h
  · rw [← val_drop, List.drop_eq_getElem_cons h, val_cons, Nat.add_mul_mod_self_left, Nat.mod_eq_of_lt (BitVec.isLt _)]
    simp [wordAt, List.getD, h]
  · rw [Nat.div_eq_of_lt ((val_lt a).trans_le (Nat.pow_le_pow_right (by decide) h))]
    simp [wordAt, List.getD, h]

/-- Two BigNats of one length with one value are the same words. -/
theorem eq_of_val_eq {a b : BigNat} (hl : a.length = b.length) (hv : val a = val b) : a = b := by
  induction a generalizing b with
  | nil => cases b with
    | nil => rfl
    | cons => simp at hl
  | cons w ws ih => cases b with
    | nil => simp at hl
    | cons v vs =>
      simp only [val_cons, radix] at hv
      have hw := w.isLt
      have hv' := v.isLt
      have h1 : w.toNat = v.toNat := by omega
      have h2 : val ws = val vs := by omega
      rw [BitVec.eq_of_toNat_eq h1, ih (by simpa using hl) h2]

@[simp] theorem wordOf_toNat (v k : Nat) : (wordOf v k).toNat = v / radix ^ k % radix := by
  simp [wordOf]

/-! ### add_word, subtract_word, vadd, vsub -/

/-- Rule R131: sum and carry together are the exact sum. -/
theorem addWord_spec (a b : Word) (cy : Bool) :
    (addWord a b cy).1.toNat + radix * (addWord a b cy).2.toNat = a.toNat + b.toNat + cy.toNat := by
  have ha := a.isLt
  have hb := b.isLt
  have hr : radix = 65536 := rfl
  cases cy <;> by_cases h : radix ≤ a.toNat + b.toNat + 1 <;> by_cases h' : radix ≤ a.toNat + b.toNat <;>
    simp [addWord, h, h'] <;> omega

/-- Rule R132: the difference is exact up to the borrow. -/
theorem subWord_spec (a b : Word) (br : Bool) :
    (subWord a b br).1.toNat + b.toNat + br.toNat = a.toNat + radix * (subWord a b br).2.toNat := by
  have ha := a.isLt
  have hb := b.isLt
  have hr : radix = 65536 := rfl
  cases br <;> by_cases h : a.toNat < b.toNat + 1 <;> by_cases h' : a.toNat < b.toNat <;>
    simp [subWord, h, h'] <;> omega

theorem vaddFrom_spec (a b : BigNat) (cy : Bool) (h : a.length = b.length) :
    (vaddFrom a b cy).1.length = a.length ∧
      val (vaddFrom a b cy).1 + radix ^ a.length * (vaddFrom a b cy).2.toNat = val a + val b + cy.toNat := by
  induction a generalizing b cy with
  | nil => cases b with
    | nil => simp [vaddFrom]
    | cons => simp at h
  | cons w ws ih => cases b with
    | nil => simp at h
    | cons v vs =>
      obtain ⟨hl, hv⟩ := ih vs (addWord w v cy).2 (by simpa using h)
      have hw := addWord_spec w v cy
      refine ⟨by simp [vaddFrom, hl], ?_⟩
      simp only [vaddFrom, val_cons, List.length_cons, pow_succ]
      nlinarith

theorem vsubFrom_spec (a b : BigNat) (br : Bool) (h : a.length = b.length) :
    (vsubFrom a b br).1.length = a.length ∧
      val (vsubFrom a b br).1 + val b + br.toNat = val a + radix ^ a.length * (vsubFrom a b br).2.toNat := by
  induction a generalizing b br with
  | nil => cases b with
    | nil => simp [vsubFrom]
    | cons => simp at h
  | cons w ws ih => cases b with
    | nil => simp at h
    | cons v vs =>
      obtain ⟨hl, hv⟩ := ih vs (subWord w v br).2 (by simpa using h)
      have hw := subWord_spec w v br
      refine ⟨by simp [vsubFrom, hl], ?_⟩
      simp only [vsubFrom, val_cons, List.length_cons, pow_succ]
      nlinarith

@[simp] theorem vadd_length (a b : BigNat) (h : a.length = b.length) : (vadd a b).1.length = a.length :=
  (vaddFrom_spec a b false h).1

@[simp] theorem vsub_length (a b : BigNat) (h : a.length = b.length) : (vsub a b).1.length = a.length :=
  (vsubFrom_spec a b false h).1

/-- Rule R133: sum and carry together are the exact sum. -/
theorem vadd_spec (a b : BigNat) (h : a.length = b.length) :
    val (vadd a b).1 + radix ^ a.length * (vadd a b).2.toNat = val a + val b := by
  simpa [vadd] using (vaddFrom_spec a b false h).2

/-- Rule R134: the difference is exact up to the borrow. -/
theorem vsub_spec (a b : BigNat) (h : a.length = b.length) :
    val (vsub a b).1 + val b = val a + radix ^ a.length * (vsub a b).2.toNat := by
  simpa [vsub] using (vsubFrom_spec a b false h).2

/-- Rule R133: the carry says whether the sum leaves n words. -/
theorem vadd_carry (a b : BigNat) (h : a.length = b.length) :
    (vadd a b).2 = decide (radix ^ a.length ≤ val a + val b) := by
  have hs := vadd_spec a b h
  have hl := val_lt (vadd a b).1
  rw [vadd_length a b h] at hl
  cases hc : (vadd a b).2 <;> simp [hc] at hs ⊢ <;> omega

/-- Rule R134: the borrow says whether a is below b. -/
theorem vsub_borrow (a b : BigNat) (h : a.length = b.length) : (vsub a b).2 = decide (val a < val b) := by
  have hs := vsub_spec a b h
  have hl := val_lt (vsub a b).1
  rw [vsub_length a b h] at hl
  have hb := val_lt b
  rw [← h] at hb
  cases hc : (vsub a b).2 <;> simp [hc] at hs ⊢ <;> omega

/-- Rule R133: the sum mod b^n. -/
theorem vadd_val (a b : BigNat) (h : a.length = b.length) :
    val (vadd a b).1 = (val a + val b) % radix ^ a.length := by
  have hl := val_lt (vadd a b).1
  rw [vadd_length a b h] at hl
  rw [← vadd_spec a b h, Nat.add_mul_mod_self_left, Nat.mod_eq_of_lt hl]

/-- Rule R134: the difference mod b^n. -/
theorem vsub_val (a b : BigNat) (h : a.length = b.length) :
    val (vsub a b).1 = (val a + radix ^ a.length - val b) % radix ^ a.length := by
  have hl := val_lt (vsub a b).1
  rw [vsub_length a b h] at hl
  have hb := val_lt b
  rw [← h] at hb
  have hs := vsub_spec a b h
  cases hc : (vsub a b).2 with
  | false =>
    simp only [hc, Bool.toNat_false, mul_zero, add_zero] at hs
    rw [show val a + radix ^ a.length - val b = val (vsub a b).1 + radix ^ a.length by omega,
      Nat.add_mod_right, Nat.mod_eq_of_lt hl]
  | true =>
    simp only [hc, Bool.toNat_true, mul_one] at hs
    rw [show val a + radix ^ a.length - val b = val (vsub a b).1 by omega, Nat.mod_eq_of_lt hl]

/-- Rule R134 where a is at least b: the exact difference. -/
theorem vsub_val_of_le (a b : BigNat) (h : a.length = b.length) (hle : val b ≤ val a) :
    val (vsub a b).1 = val a - val b := by
  have hs := vsub_spec a b h
  rw [vsub_borrow a b h, decide_eq_false (by omega)] at hs
  simp at hs
  omega

/-! ### compare -/

theorem geqBelow_spec (a b : BigNat) (i : Nat) (ha : i ≤ a.length) (hb : i ≤ b.length) :
    geqBelow a b i = decide (val (b.take i) ≤ val (a.take i)) := by
  induction i with
  | zero => simp [geqBelow]
  | succ i ih =>
    have la := val_lt (a.take i)
    have lb := val_lt (b.take i)
    rw [List.length_take, min_eq_left (by omega)] at la lb
    rw [geqBelow, ih (by omega) (by omega), val_take_succ a i (by omega), val_take_succ b i (by omega)]
    have hp : 0 < radix ^ i := by positivity
    split_ifs with h1 h2
    · have : radix ^ i * ((wordAt b i).toNat + 1) ≤ radix ^ i * (wordAt a i).toNat := Nat.mul_le_mul_left _ h1
      symm; rw [decide_eq_true_iff]; rw [Nat.mul_add, Nat.mul_one] at this; omega
    · have : radix ^ i * ((wordAt a i).toNat + 1) ≤ radix ^ i * (wordAt b i).toNat := Nat.mul_le_mul_left _ h2
      symm; rw [decide_eq_false_iff_not]; rw [Nat.mul_add, Nat.mul_one] at this; omega
    · rw [show (wordAt a i).toNat = (wordAt b i).toNat by omega]
      exact decide_eq_decide.mpr (by omega)

/-- Rule R135: `compare` is the order of the values. -/
theorem geq_spec (a b : BigNat) (n : Nat) (ha : a.length = n) (hb : b.length = n) :
    geq a b n = decide (val b ≤ val a) := by
  subst ha
  rw [geq, geqBelow_spec a b _ le_rfl hb.ge, List.take_length, ← hb, List.take_length]

/-! ### shift_up, shift_down -/

@[simp] theorem shiftUp_length (n : Nat) (a : BigNat) (k : Nat) : (shiftUp n a k).length = n := by
  simp only [shiftUp, List.length_take, List.length_append, length_zeroWords]
  omega

/-- Rule R137: the value shifted up, mod b^out_len. -/
theorem shiftUp_val (n : Nat) (a : BigNat) (k : Nat) : val (shiftUp n a k) = val a * radix ^ k % radix ^ n := by
  rw [shiftUp, val_take, val_append, val_append]
  simp [Nat.mul_comm]

/-- Rule R137 where no word is dropped. -/
theorem shiftUp_val_exact (n : Nat) (a : BigNat) (k : Nat) (h : a.length + k ≤ n) :
    val (shiftUp n a k) = val a * radix ^ k := by
  rw [shiftUp_val, Nat.mod_eq_of_lt]
  calc val a * radix ^ k < radix ^ a.length * radix ^ k := Nat.mul_lt_mul_of_pos_right (val_lt a) (by positivity)
    _ = radix ^ (a.length + k) := (pow_add _ _ _).symm
    _ ≤ radix ^ n := Nat.pow_le_pow_right (by decide) h

/-- Rule R138 where its condition holds: the value shifted down. -/
theorem shiftDown_val (n : Nat) (a : BigNat) (k : Nat) (h : a.length < n + 1 + k) :
    val (shiftDown n a k) = val a / radix ^ k := by
  rw [shiftDown, if_pos h, val_take, val_append, val_zeroWords, Nat.mul_zero, Nat.add_zero, val_drop, Nat.mod_eq_of_lt]
  rw [← val_drop]
  refine (val_lt _).trans_le (Nat.pow_le_pow_right (by decide) ?_)
  rw [List.length_drop]; omega

/-! ### Word by vector, two words by one -/

theorem mulWordFrom_spec (a : Word) (bv : BigNat) (cy : Nat) (h : cy < radix) :
    (mulWordFrom a bv cy).length = bv.length + 1 ∧ val (mulWordFrom a bv cy) = a.toNat * val bv + cy := by
  induction bv generalizing cy with
  | nil => simpa [mulWordFrom] using h
  | cons w ws ih =>
    have ha : a.toNat ≤ radix - 1 := Nat.le_pred_of_lt a.isLt
    have hw : w.toNat ≤ radix - 1 := Nat.le_pred_of_lt w.isLt
    have hm := Nat.mul_le_mul ha hw
    have ht : (mulWords a w + cy) / radix < radix := by
      rw [mulWords, Nat.div_lt_iff_lt_mul (by decide)]
      simp only [radix] at *
      omega
    obtain ⟨hl, hv⟩ := ih _ ht
    refine ⟨by simp [mulWordFrom, hl], ?_⟩
    have hd := Nat.mod_add_div (mulWords a w + cy) radix
    simp only [mulWordFrom, val_cons, hv, BitVec.toNat_ofNat, Nat.reducePow]
    simp only [mulWords] at *
    nlinarith

@[simp] theorem mulWordByVector_length (a : Word) (bv : BigNat) : (mulWordByVector a bv).length = bv.length + 1 :=
  (mulWordFrom_spec a bv 0 (by decide)).1

/-- Rule R140: the exact product. -/
theorem mulWordByVector_val (a : Word) (bv : BigNat) : val (mulWordByVector a bv) = a.toNat * val bv :=
  (mulWordFrom_spec a bv 0 (by decide)).2

/-- Rule R141 with hi below d: the quotient fits a word. -/
theorem div2by1_spec (hi lo d : Word) (h : hi.toNat < d.toNat) :
    ∃ q : Word, div2by1 hi lo d = some q ∧ q.toNat = (hi.toNat * radix + lo.toNat) / d.toNat := by
  refine ⟨_, if_neg (by omega), ?_⟩
  rw [BitVec.toNat_ofNat, Nat.mod_eq_of_lt]
  rw [Nat.div_lt_iff_lt_mul (by omega)]
  have := lo.isLt
  simp only [radix] at *
  omega

/-! ### Bit inspection -/

/-- Rule R153: bit `i` of the value. -/
theorem bitAt_spec (e : BigNat) (i : Nat) : bitAt e i = (val e).testBit i := by
  have h1 : radix ^ (i / 16) = 2 ^ (16 * (i / 16)) := by rw [pow_mul]; rfl
  have h2 : i = 16 * (i / 16) + i % 16 := (Nat.div_add_mod i 16).symm
  rw [bitAt, bitOfWord, BitVec.getLsbD, wordAt_toNat, h1, show radix = 2 ^ 16 from rfl, Nat.testBit_mod_two_pow,
    Nat.testBit_div_two_pow, decide_eq_true (Nat.mod_lt _ (by decide)), Bool.true_and, Nat.add_comm, ← h2]

theorem mod_two_pow_step (x i : Nat) : x % 2 ^ (i + 1) = x % 2 ^ i + 2 ^ i * (x.testBit i).toNat := by
  rw [Nat.mod_pow_succ, Nat.testBit_eq_decide_div_mod_eq]
  rcases Nat.mod_two_eq_zero_or_one (x / 2 ^ i) with h | h <;> simp [h]

theorem topBitBelow_none (w : Word) (i : Nat) (h : topBitBelow w i = none) : w.toNat % 2 ^ i = 0 := by
  induction i with
  | zero => simp [Nat.mod_one]
  | succ i ih =>
    rw [topBitBelow] at h
    split_ifs at h with hb
    rw [bitOfWord, BitVec.getLsbD] at hb
    rw [mod_two_pow_step, ih h]
    simp [hb]

theorem topBitBelow_some (w : Word) (i t : Nat) (h : topBitBelow w i = some t) :
    2 ^ t ≤ w.toNat % 2 ^ i ∧ w.toNat % 2 ^ i < 2 ^ (t + 1) := by
  induction i with
  | zero => simp [topBitBelow] at h
  | succ i ih =>
    rw [topBitBelow] at h
    rw [mod_two_pow_step]
    have hlt : w.toNat % 2 ^ i < 2 ^ i := Nat.mod_lt _ (by positivity)
    split_ifs at h with hb
    · obtain rfl : i = t := by simpa using h
      rw [bitOfWord, BitVec.getLsbD] at hb
      simp [hb, pow_succ]
      omega
    · rw [bitOfWord, BitVec.getLsbD] at hb
      simpa [hb] using ih h

/-- Rule R151: no value exactly for a zero word, else the index of the highest set bit. -/
theorem wordBitLength_none (w : Word) (h : wordBitLength w = none) : w.toNat = 0 := by
  have := topBitBelow_none w 16 h
  rwa [Nat.mod_eq_of_lt w.isLt] at this

theorem wordBitLength_some (w : Word) (t : Nat) (h : wordBitLength w = some t) :
    2 ^ t ≤ w.toNat ∧ w.toNat < 2 ^ (t + 1) := by
  have := topBitBelow_some w 16 t h
  rwa [Nat.mod_eq_of_lt w.isLt] at this

theorem bitLengthBelow_none (e : BigNat) (k : Nat) (hk : k ≤ e.length) (h : bitLengthBelow e k = none) :
    val (e.take k) = 0 := by
  induction k with
  | zero => simp
  | succ k ih =>
    rw [bitLengthBelow] at h
    cases hw : wordBitLength (wordAt e k) with
    | some i => simp [hw] at h
    | none =>
      simp only [hw] at h
      rw [val_take_succ e k (by omega), ih (by omega) h, wordBitLength_none _ hw, Nat.mul_zero]

theorem bitLengthBelow_some (e : BigNat) (k t : Nat) (hk : k ≤ e.length) (h : bitLengthBelow e k = some t) :
    2 ^ t ≤ val (e.take k) ∧ val (e.take k) < 2 ^ (t + 1) := by
  induction k with
  | zero => simp [bitLengthBelow] at h
  | succ k ih =>
    rw [bitLengthBelow] at h
    rw [val_take_succ e k (by omega)]
    cases hw : wordBitLength (wordAt e k) with
    | none =>
      simp only [hw] at h
      simpa [wordBitLength_none _ hw] using ih (by omega) h
    | some i =>
      obtain rfl : 16 * k + i = t := by simpa [hw] using h
      obtain ⟨h1, h2⟩ := wordBitLength_some _ _ hw
      have hl := val_lt (e.take k)
      rw [List.length_take, min_eq_left (by omega)] at hl
      have hr : radix ^ k = 2 ^ (16 * k) := by rw [pow_mul]; rfl
      rw [hr] at hl ⊢
      rw [pow_succ, pow_add]
      rw [pow_succ] at h2
      constructor
      · nlinarith [Nat.zero_le (val (e.take k))]
      · have : (wordAt e k).toNat + 1 ≤ 2 ^ i * 2 := h2
        nlinarith

/-- Rules R152, R254: `bit_length` has no value exactly for the all-zero vector. -/
theorem bitLength_none (e : BigNat) (h : bitLength e = none) : val e = 0 := by
  simpa using bitLengthBelow_none e _ le_rfl h

/-- Rule R152: the index of the highest set bit of the value. -/
theorem bitLength_some (e : BigNat) (t : Nat) (h : bitLength e = some t) : 2 ^ t ≤ val e ∧ val e < 2 ^ (t + 1) := by
  simpa using bitLengthBelow_some e _ t le_rfl h

end Sys2Proof.Machine
end

