-- ==== Sys2Proof/Laws/AddSub.lean ====
section
/-! SUPPORT. What ADD and SUB compute, once (42_add_sub.md rules R170 to R173). -/

namespace Sys2Proof.Machine

/-- `Compute_ADD` (rule R170): the sum mod b^n and its carry. -/
theorem computeAdd_spec (w : Work) (a b : BigNat) (h : a.length = b.length) :
    computeAdd w a b = .ok { values := [(val a + val b) % radix ^ a.length],
                             flag := decide (radix ^ a.length ≤ val a + val b), work := w } := by
  rw [computeAdd, vadd_val a b h, vadd_carry a b h]

/-- `Compute_SUB` (rule R172): the difference mod b^n and its borrow. -/
theorem computeSub_spec (w : Work) (a b : BigNat) (h : a.length = b.length) :
    computeSub w a b = .ok { values := [(val a + radix ^ a.length - val b) % radix ^ a.length],
                             flag := decide (val a < val b), work := w } := by
  rw [computeSub, vsub_val a b h, vsub_borrow a b h]

end Sys2Proof.Machine
end

