-- ==== Sys2Proof/Laws/Div.lean ====
section
/-! SUPPORT. The long division of 44_divide.md answers, and answers the exact quotient and remainder (rules R202 to
R210). -/

namespace Sys2Proof.Machine

/-- A computation that answered goes on with its answer. -/
theorem andThen_ok {α β : Type} {m : Except ErrCode α} {a : α} {f : α → Except ErrCode β} (h : m = .ok a) :
    andThen m f = f a := by
  rw [h]
  rfl

/-- An answer of `andThen` comes from an answer of its first computation. -/
theorem andThen_eq_ok {α β : Type} {m : Except ErrCode α} {f : α → Except ErrCode β} {b : β}
    (h : andThen m f = .ok b) : ∃ a, m = .ok a ∧ f a = .ok b := by
  cases m with
  | error e => cases h
  | ok a => exact ⟨a, rfl, h⟩

/-! ### The two loops -/

/-- Rule R202: with enough of the cap left, step 1 leaves the remainder by ys and has counted the quotient. -/
theorem topDigitLoop_spec (ys : BigNat) (fuel : Nat) (q : Word) (x : BigNat) (hl : x.length = ys.length)
    (hy : 0 < val ys) (hf : val x / val ys ≤ fuel) :
    ∃ x', topDigitLoop ys fuel q x = .ok (q + BitVec.ofNat 16 (val x / val ys), x') ∧ x'.length = ys.length ∧
      val x' = val x % val ys := by
  induction fuel generalizing q x with
  | zero =>
    have h0 : val x / val ys = 0 := Nat.le_zero.mp hf
    have hlt : val x < val ys := (Nat.div_eq_zero_iff_lt hy).mp h0
    refine ⟨x, ?_, hl, (Nat.mod_eq_of_lt hlt).symm⟩
    rw [topDigitLoop, geq_spec x ys _ hl rfl, decide_eq_false (by omega), h0]
    simp
  | succ fuel ih =>
    rw [topDigitLoop, geq_spec x ys _ hl rfl]
    rcases Nat.lt_or_ge (val x) (val ys) with hlt | hge
    · refine ⟨x, ?_, hl, (Nat.mod_eq_of_lt hlt).symm⟩
      rw [decide_eq_false (by omega), Nat.div_eq_of_lt hlt]
      simp
    · have hv := vsub_val_of_le x ys hl hge
      have hd : val x / val ys = (val x - val ys) / val ys + 1 := Nat.div_eq_sub_div hy hge
      obtain ⟨x', he, hl', hv'⟩ := ih (q + 1) (vsub x ys).1 (by rw [vsub_length x ys hl, hl]) (by rw [hv]; omega)
      refine ⟨x', ?_, hl', by rw [hv', hv, ← Nat.mod_eq_sub_mod hge]⟩
      rw [decide_eq_true hge, if_pos rfl, he, hv, hd]
      congr 2
      apply BitVec.eq_of_toNat_eq
      simp [BitVec.toNat_add]
      omega

/-- Rule R206: with enough of the cap left, step 3 answers the smaller of the trial digit and floor(X3 / Y2). -/
theorem correctLoop_spec (x3 y2 fuel : Nat) (qh : Word) (hy : 0 < y2) (hf : qh.toNat ≤ fuel) :
    ∃ q' : Word, correctLoop x3 y2 fuel qh = .ok q' ∧ q'.toNat = min qh.toNat (x3 / y2) := by
  induction fuel generalizing qh with
  | zero =>
    have h0 : qh.toNat = 0 := Nat.le_zero.mp hf
    exact ⟨qh, by rw [correctLoop, h0]; simp, by rw [h0, Nat.zero_min]⟩
  | succ fuel ih =>
    rw [correctLoop]
    split_ifs with h
    · have hq : x3 / y2 < qh.toNat := (Nat.div_lt_iff_lt_mul hy).mpr h
      have hp : 0 < qh.toNat := Nat.zero_lt_of_lt hq
      have h1 : (qh - 1).toNat = qh.toNat - 1 := by
        have := qh.isLt
        simp [BitVec.toNat_sub]
        omega
      obtain ⟨q', he, hq'⟩ := ih (qh - 1) (by omega)
      exact ⟨q', he, by rw [hq', h1, min_eq_right (by omega), min_eq_right hq.le]⟩
    · have hq : qh.toNat ≤ x3 / y2 := (Nat.le_div_iff_mul_le hy).mpr (by omega)
      exact ⟨qh, rfl, (min_eq_left hq).symm⟩

/-! ### Leading digits -/

theorem top_word_eq (y : BigNat) (hy : 1 ≤ y.length) :
    (wordAt y (y.length - 1)).toNat = val y / radix ^ (y.length - 1) := by
  rw [wordAt_toNat, Nat.mod_eq_of_lt]
  rw [Nat.div_lt_iff_lt_mul (by positivity), ← pow_succ', Nat.sub_add_cancel hy]
  exact val_lt y

/-- Two leading digits of a value are its quotient by the lower weight. -/
theorem two_digits (v k : Nat) : v / radix ^ (k + 1) * radix + v / radix ^ k % radix = v / radix ^ k := by
  rw [pow_succ, ← Nat.div_div_eq_div_mul, Nat.mul_comm]
  exact Nat.div_add_mod _ _

/-- The leading word of a value below the weight above it. -/
theorem lead_word_eq (x : BigNat) (i : Nat) (h : val x < radix ^ (i + 1)) : (wordAt x i).toNat = val x / radix ^ i := by
  rw [wordAt_toNat, Nat.mod_eq_of_lt]
  rw [Nat.div_lt_iff_lt_mul (by positivity), ← pow_succ']
  exact h

/-! ### One digit -/

section Digit

variable {x y : BigNat} {j : Nat}

theorem DigitEntry.two (h : DigitEntry x y j) : 2 ≤ y.length := h.1

theorem DigitEntry.top (h : DigitEntry x y j) : wordAt y (y.length - 1) ≠ 0 := h.2.1

theorem DigitEntry.fits (h : DigitEntry x y j) : j + y.length + 1 ≤ x.length := h.2.2.1

theorem DigitEntry.bound (h : DigitEntry x y j) : val x < val y * radix ^ (j + 1) := h.2.2.2

theorem DigitEntry.top_pos (h : DigitEntry x y j) : 0 < (wordAt y (y.length - 1)).toNat := by
  refine Nat.pos_of_ne_zero fun h0 => h.top ?_
  exact BitVec.eq_of_toNat_eq h0

theorem DigitEntry.y_pos (h : DigitEntry x y j) : 0 < val y := by
  have h1 := h.top_pos
  rw [top_word_eq y (by have := h.two; omega)] at h1
  exact Nat.pos_of_ne_zero fun h0 => by simp [h0] at h1

theorem DigitEntry.x_lt (h : DigitEntry x y j) : val x < radix ^ (j + y.length + 1) := by
  refine h.bound.trans_le ?_
  rw [show j + y.length + 1 = y.length + (j + 1) by omega, pow_add radix y.length]
  exact Nat.mul_le_mul_right _ (val_lt y).le

theorem DigitEntry.digit_lt (h : DigitEntry x y j) : trueDigit x y j < radix := by
  rw [trueDigit, Nat.div_lt_iff_lt_mul (Nat.mul_pos h.y_pos (by positivity))]
  have := h.bound
  rw [pow_succ] at this
  nlinarith

/-- A leading part of y times the true digit is at most the same leading part of x. -/
theorem trueDigit_mul_le (x y : BigNat) (j k : Nat) :
    trueDigit x y j * (val y / radix ^ k) ≤ val x / radix ^ (k + j) := by
  rw [Nat.le_div_iff_mul_le (by positivity), pow_add]
  calc trueDigit x y j * (val y / radix ^ k) * (radix ^ k * radix ^ j)
      = trueDigit x y j * (val y / radix ^ k * radix ^ k * radix ^ j) := by ring
    _ ≤ trueDigit x y j * (val y * radix ^ j) :=
        Nat.mul_le_mul_left _ (Nat.mul_le_mul_right _ (Nat.div_mul_le_self _ _))
    _ ≤ val x := Nat.div_mul_le_self _ _

/-- Rules R204, R205: the trial digit exists and is at least the true digit. -/
theorem DigitEntry.trialDigit_spec (h : DigitEntry x y j) :
    ∃ qh : Word, trialDigit x y (j + y.length) = .ok qh ∧ trueDigit x y j ≤ qh.toNat := by
  have ht := h.two
  have hxi := lead_word_eq x (j + y.length) h.x_lt
  have hyt := top_word_eq y (by omega)
  have hle : (wordAt x (j + y.length)).toNat ≤ (wordAt y (y.length - 1)).toNat := by
    rw [hxi, hyt, ← Nat.lt_add_one_iff, Nat.div_lt_iff_lt_mul (by positivity)]
    have h1 : val y < (val y / radix ^ (y.length - 1) + 1) * radix ^ (y.length - 1) := by
      rw [Nat.add_mul, Nat.one_mul]
      exact Nat.lt_div_mul_add (by positivity)
    refine h.bound.trans_le ?_
    rw [show j + y.length = (y.length - 1) + (j + 1) by omega, pow_add radix (y.length - 1), ← Nat.mul_assoc]
    exact Nat.mul_le_mul_right _ h1.le
  rw [trialDigit]
  by_cases hc : wordAt x (j + y.length) = wordAt y (y.length - 1)
  · refine ⟨0xFFFF, if_pos hc, ?_⟩
    have h1 : (0xFFFF : Word).toNat = 65535 := rfl
    have h2 : trueDigit x y j < 65536 := h.digit_lt
    omega
  · have hlt : (wordAt x (j + y.length)).toNat < (wordAt y (y.length - 1)).toNat :=
      lt_of_le_of_ne hle fun he => hc (BitVec.eq_of_toNat_eq he)
    obtain ⟨qh, he, hq⟩ := div2by1_spec _ (wordAt x (j + y.length - 1)) _ hlt
    refine ⟨qh, by rw [if_neg hc, he], ?_⟩
    rw [hq, Nat.le_div_iff_mul_le h.top_pos, hxi, hyt, wordAt_toNat,
      show j + y.length = (j + y.length - 1) + 1 by omega, Nat.add_sub_cancel, two_digits]
    have := trueDigit_mul_le x y j (y.length - 1)
    rwa [show y.length - 1 + j = j + y.length - 1 by omega] at this

/-- Rules R206, R209: the corrected digit is the true digit or one more. -/
theorem DigitEntry.correctDigit_spec (h : DigitEntry x y j) (qh : Word) (hq : trueDigit x y j ≤ qh.toNat) :
    ∃ q' : Word, correctDigit x y (j + y.length) qh = .ok q' ∧ trueDigit x y j ≤ q'.toNat ∧
      q'.toNat ≤ trueDigit x y j + 1 := by
  have ht := h.two
  have hx3 : (wordAt x (j + y.length)).toNat * radix ^ 2 + (wordAt x (j + y.length - 1)).toNat * radix +
      (wordAt x (j + y.length - 2)).toNat = val x / radix ^ (j + y.length - 2) := by
    rw [lead_word_eq x _ h.x_lt, wordAt_toNat, wordAt_toNat]
    have h1 := two_digits (val x) (j + y.length - 1)
    have h2 := two_digits (val x) (j + y.length - 2)
    rw [show j + y.length - 1 + 1 = j + y.length by omega] at h1
    rw [show j + y.length - 2 + 1 = j + y.length - 1 by omega] at h2
    rw [sq, ← Nat.mul_assoc, ← Nat.add_mul, h1, h2]
  have hy2 : (wordAt y (y.length - 1)).toNat * radix + (wordAt y (y.length - 2)).toNat =
      val y / radix ^ (y.length - 2) := by
    rw [top_word_eq y (by omega), wordAt_toNat]
    have h2 := two_digits (val y) (y.length - 2)
    rwa [show y.length - 2 + 1 = y.length - 1 by omega] at h2
  have hbig : radix ≤ val y / radix ^ (y.length - 2) := by
    rw [← hy2]
    have := h.top_pos
    nlinarith
  have hqlt : qh.toNat ≤ Config.corrCap := by
    have h1 := qh.isLt
    have h2 : Config.corrCap = 65535 := rfl
    omega
  obtain ⟨q', he, hq'⟩ := correctLoop_spec (val x / radix ^ (j + y.length - 2)) (val y / radix ^ (y.length - 2)) _ qh
    (lt_of_lt_of_le (by decide) hbig) hqlt
  refine ⟨q', by rw [correctDigit, hx3, hy2, he], ?_, ?_⟩
  · rw [hq', le_min_iff]
    refine ⟨hq, ?_⟩
    rw [Nat.le_div_iff_mul_le (lt_of_lt_of_le (by decide) hbig)]
    have := trueDigit_mul_le x y j (y.length - 2)
    rwa [show y.length - 2 + j = j + y.length - 2 by omega] at this
  · have hle : q'.toNat * (val y / radix ^ (y.length - 2)) ≤ val x / radix ^ (j + y.length - 2) := by
      rw [← Nat.le_div_iff_mul_le (lt_of_lt_of_le (by decide) hbig)]
      omega
    by_contra hgt
    push Not at hgt
    have hpos : 0 < val y * radix ^ j := Nat.mul_pos h.y_pos (by positivity)
    have hx : val x < (trueDigit x y j + 1) * (val y * radix ^ j) := by
      rw [Nat.add_mul, Nat.one_mul]
      exact Nat.lt_div_mul_add hpos
    generalize hY : val y / radix ^ (y.length - 2) = Y at *
    have hYlt : val y < (Y + 1) * radix ^ (y.length - 2) := by
      rw [← hY, Nat.add_mul, Nat.one_mul]
      exact Nat.lt_div_mul_add (by positivity)
    have hYle : Y * radix ^ (y.length - 2) ≤ val y := by rw [← hY]; exact Nat.div_mul_le_self _ _
    have hw : radix ^ (j + y.length - 2) = radix ^ (y.length - 2) * radix ^ j := by
      rw [← pow_add]; congr 1; omega
    rw [Nat.le_div_iff_mul_le (by positivity), hw] at hle
    have hq'lt : q'.toNat < radix := q'.isLt
    generalize radix ^ (y.length - 2) = U at *
    generalize hJ : radix ^ j = J at *
    have hUJ : 0 < J := by rw [← hJ]; positivity
    have hU : 0 < U := by
      rcases Nat.eq_zero_or_pos U with h0 | h0
      · subst h0; omega
      · exact h0
    -- q' · y · b^j is at most x + q' · b^(i-2), which is below x + y · b^j
    have h1 : q'.toNat * (val y * J) ≤ q'.toNat * Y * (U * J) + q'.toNat * (U * J) := by
      calc q'.toNat * (val y * J) ≤ q'.toNat * ((Y + 1) * U * J) :=
            Nat.mul_le_mul_left _ (Nat.mul_le_mul_right _ hYlt.le)
        _ = _ := by ring
    have h2 : q'.toNat * (U * J) < val y * J := by
      calc q'.toNat * (U * J) < Y * (U * J) :=
            Nat.mul_lt_mul_of_pos_right (lt_of_lt_of_le hq'lt hbig) (Nat.mul_pos hU hUJ)
        _ = Y * U * J := by ring
        _ ≤ val y * J := Nat.mul_le_mul_right _ hYle
    have h3 : (trueDigit x y j + 1 + 1) * (val y * J) ≤ q'.toNat * (val y * J) := Nat.mul_le_mul_right _ hgt
    rw [Nat.add_mul, Nat.one_mul] at h3
    omega

end Digit

/-- Rules R207, R209: after multiplying back, x is the remainder by y · b^j and the digit written is the true one. -/
theorem multiplyBack_spec {x y : BigNat} {j : Nat} (h : DigitEntry x y j) (qh : Word) (st : DivState) (hx : st.x = x)
    (h1 : trueDigit x y j ≤ qh.toNat) (h2 : qh.toNat ≤ trueDigit x y j + 1) :
    (multiplyBack y x.length j qh st).x.length = x.length ∧
      val (multiplyBack y x.length j qh st).x = val x % (val y * radix ^ j) ∧
      (multiplyBack y x.length j qh st).q = st.q.set j (BitVec.ofNat 16 (trueDigit x y j)) := by
  subst hx
  have ht := h.two
  have hf := h.fits
  have hlP : (shiftUp st.x.length (mulWordByVector qh y) j).length = st.x.length := shiftUp_length _ _ _
  have hvP : val (shiftUp st.x.length (mulWordByVector qh y) j) = qh.toNat * (val y * radix ^ j) := by
    rw [shiftUp_val_exact _ _ _ (by rw [mulWordByVector_length]; omega), mulWordByVector_val, Nat.mul_assoc]
  have hpos : 0 < val y * radix ^ j := Nat.mul_pos h.y_pos (by positivity)
  have hdm := Nat.div_add_mod (val st.x) (val y * radix ^ j)
  have hml := Nat.mod_lt (val st.x) hpos
  have hdl := h.digit_lt
  rw [show val st.x / (val y * radix ^ j) = trueDigit st.x y j from rfl] at hdm
  have hqq : qh = BitVec.ofNat 16 qh.toNat := by simp
  rw [multiplyBack, geq_spec _ _ _ rfl hlP, hvP]
  by_cases hle : qh.toNat * (val y * radix ^ j) ≤ val st.x
  · have hq : qh.toNat = trueDigit st.x y j := by
      refine le_antisymm ?_ h1
      rw [trueDigit, Nat.le_div_iff_mul_le hpos]
      exact hle
    simp only [hle, decide_true, if_true]
    refine ⟨vsub_length _ _ hlP.symm, ?_, by rw [hqq, hq]⟩
    rw [vsub_val_of_le _ _ hlP.symm (by rw [hvP]; exact hle), hvP, hq]
    rw [Nat.mul_comm (trueDigit st.x y j)]
    omega
  · have hq : qh.toNat = trueDigit st.x y j + 1 := by
      refine le_antisymm h2 ?_
      by_contra hlt
      have : qh.toNat = trueDigit st.x y j := by omega
      rw [this, Nat.mul_comm] at hle
      omega
    have hlY : (shiftUp st.x.length y j).length = st.x.length := shiftUp_length _ _ _
    have hvY : val (shiftUp st.x.length y j) = val y * radix ^ j := shiftUp_val_exact _ _ _ (by omega)
    have hlA : (vadd st.x (shiftUp st.x.length y j)).1.length = st.x.length := vadd_length _ _ hlY.symm
    simp only [hle, decide_false, Bool.false_eq_true, if_false]
    refine ⟨by rw [vsub_length _ _ (by rw [hlA, hlP]), hlA], ?_, ?_⟩
    · have hPlt := val_lt (shiftUp st.x.length (mulWordByVector qh y) j)
      rw [hlP, hvP] at hPlt
      rw [vsub_val _ _ (by rw [hlA, hlP]), hlA, vadd_val _ _ hlY.symm, hvY, hvP, hq]
      rw [hq, Nat.mul_comm, Nat.mul_add, Nat.mul_one] at hPlt
      rw [Nat.mul_comm (trueDigit st.x y j + 1), Nat.mul_add, Nat.mul_one]
      generalize radix ^ st.x.length = N at *
      generalize val y * radix ^ j * trueDigit st.x y j = D at *
      generalize val y * radix ^ j = V at *
      have hrl : val st.x % V < N := by omega
      rcases Nat.lt_or_ge (val st.x + V) N with hN | hN
      · rw [Nat.mod_eq_of_lt hN, show val st.x + V + N - (D + V) = val st.x % V + N by omega, Nat.add_mod_right,
          Nat.mod_eq_of_lt hrl]
      · have hxl := val_lt st.x
        rw [Nat.mod_eq_sub_mod hN, Nat.mod_eq_of_lt (show val st.x + V - N < N by omega),
          show val st.x + V - N + N - (D + V) = val st.x % V by omega, Nat.mod_eq_of_lt hrl]
    · congr 1
      apply BitVec.eq_of_toNat_eq
      have := qh.isLt
      simp [BitVec.toNat_sub]
      omega

/-- Steps 2 to 4 at one quotient position (rules R205 to R209). -/
theorem divDigit_spec {y : BigNat} {j : Nat} (st : DivState) (h : DigitEntry st.x y j) :
    ∃ st', divDigit y st.x.length j st = .ok st' ∧ st'.x.length = st.x.length ∧
      val st'.x = val st.x % (val y * radix ^ j) ∧
      st'.q = st.q.set j (BitVec.ofNat 16 (val st.x / (val y * radix ^ j))) := by
  obtain ⟨qh, he, hq⟩ := h.trialDigit_spec
  obtain ⟨q', he', h1, h2⟩ := h.correctDigit_spec qh hq
  obtain ⟨hl, hv, hs⟩ := multiplyBack_spec h q' st rfl h1 h2
  exact ⟨_, by rw [divDigit, andThen_ok he, andThen_ok he'], hl, hv, hs⟩

/-! ### The whole division -/

theorem val_set (q : BigNat) (j : Nat) (w : Word) (hj : j < q.length) (h0 : wordAt q j = 0) :
    val (q.set j w) = val q + w.toNat * radix ^ j := by
  induction q generalizing j with
  | nil => simp at hj
  | cons v vs ih => cases j with
    | zero =>
      have : v = 0 := h0
      subst this
      simp [List.set, Nat.add_comm]
    | succ j =>
      rw [List.set, val_cons, val_cons, ih j (by simpa using hj) h0, pow_succ]
      ring

theorem wordAt_set_ne (q : BigNat) (j k : Nat) (w : Word) (h : j ≠ k) : wordAt (q.set j w) k = wordAt q k := by
  simp [wordAt, List.getD, List.getElem?_set_ne h]

/-- The loop over the positions below `j` (rules R203, R209): it answers, and keeps q · y + x. -/
theorem divDigits_spec (y : BigNat) (n j : Nat) (st : DivState) (hn : st.x.length = n) (ht : 2 ≤ y.length)
    (htop : wordAt y (y.length - 1) ≠ 0) (hj : j + y.length ≤ n) (hq : j ≤ st.q.length)
    (hz : ∀ k < j, wordAt st.q k = 0) (hx : val st.x < val y * radix ^ j) :
    ∃ st', divDigits y n j st = .ok st' ∧ st'.x.length = n ∧ st'.q.length = st.q.length ∧
      val st'.q * val y + val st'.x = val st.q * val y + val st.x ∧ val st'.x < val y := by
  induction j generalizing st with
  | zero => exact ⟨st, rfl, hn, rfl, rfl, by simpa using hx⟩
  | succ j ih =>
    have hpre : DigitEntry st.x y j := ⟨ht, htop, by omega, hx⟩
    obtain ⟨st1, he, hl, hv, hs⟩ := divDigit_spec st hpre
    have hpos : 0 < val y * radix ^ j := Nat.mul_pos hpre.y_pos (by positivity)
    have hlq : st1.q.length = st.q.length := by rw [hs, List.length_set]
    obtain ⟨st', he', hl', hq', hv', hlt⟩ := ih st1 (hl.trans hn) (by omega) (by omega)
      (fun k hk => by rw [hs, wordAt_set_ne _ _ _ _ (by omega)]; exact hz k (by omega))
      (by rw [hv]; exact Nat.mod_lt _ hpos)
    refine ⟨st', by rw [divDigits, andThen_ok (hn ▸ he), he'], hl', hq'.trans hlq, ?_, hlt⟩
    rw [hv', hv, hs, val_set _ _ _ (by omega) (hz j (by omega)), BitVec.toNat_ofNat,
      Nat.mod_eq_of_lt (show val st.x / (val y * radix ^ j) < 2 ^ 16 from hpre.digit_lt), Nat.add_mul]
    have hdm := Nat.div_add_mod (val st.x) (val y * radix ^ j)
    have hr : val st.x / (val y * radix ^ j) * radix ^ j * val y =
      val y * radix ^ j * (val st.x / (val y * radix ^ j)) := by ring
    rw [hr]
    omega

theorem topDigit_eq {y : BigNat} {n : Nat} {st : DivState} {r : Word × BigNat}
    (h : topDigitLoop (shiftUp n y (n - y.length)) Config.corrCap 0 st.x = .ok r) :
    topDigit y n st =
      .ok { st with q := st.q.set (n - y.length) r.1, x := r.2, shiftY := shiftUp n y (n - y.length) } := by
  rw [topDigit, andThen_ok h]

/-- Rules R201 to R211: a division whose divisor passes CheckDivisor answers, and its quotient and remainder are
exact. -/
theorem divide_spec (x y : BigNat) (hxy : y.length ≤ x.length) (hd : divisorOk y = true) :
    ∃ st, divide x y = .ok st ∧ st.x.length = x.length ∧ st.q.length = x.length - y.length + 1 ∧
      (st.remainder y.length).length = y.length ∧ val st.q = val x / val y ∧
      val (st.remainder y.length) = val x % val y := by
  obtain ⟨ht, htop⟩ : 1 < y.length ∧ wordAt y (y.length - 1) ≠ 0 := by
    simpa [divisorOk] using hd
  have hypos : 0 < val y := by
    refine Nat.pos_of_ne_zero fun h0 => htop (BitVec.eq_of_toNat_eq ?_)
    rw [wordAt_toNat, h0]
    simp
  set n := x.length with hn
  set t := y.length with htl
  have hys : val (shiftUp n y (n - t)) = val y * radix ^ (n - t) := shiftUp_val_exact _ _ _ (by omega)
  have hyspos : 0 < val (shiftUp n y (n - t)) := by rw [hys]; exact Nat.mul_pos hypos (by positivity)
  have hdig : val x / val (shiftUp n y (n - t)) < radix := by
    rw [Nat.div_lt_iff_lt_mul hyspos, hys]
    have hy1 : radix ^ (t - 1) ≤ val y := by
      have h1 : 0 < (wordAt y (t - 1)).toNat := Nat.pos_of_ne_zero fun h0 => htop (BitVec.eq_of_toNat_eq h0)
      rw [htl, top_word_eq y (by omega), ← htl] at h1
      exact (Nat.div_pos_iff.mp h1).2
    calc val x < radix ^ n := val_lt x
      _ = radix * (radix ^ (t - 1) * radix ^ (n - t)) := by
          rw [← pow_add, ← pow_succ']; congr 1; omega
      _ ≤ _ := Nat.mul_le_mul_left _ (Nat.mul_le_mul_right _ hy1)
  obtain ⟨x1, he, hl1, hv1⟩ := topDigitLoop_spec (shiftUp n y (n - t)) Config.corrCap 0 x (by simp [hn]) hyspos
    (by
      have h1 : Config.corrCap = 65535 := rfl
      rw [h1]
      exact Nat.le_of_lt_succ hdig)
  rw [shiftUp_length] at hl1
  have hzero : ∀ k, wordAt (zeroWords (n - t + 1)) k = 0 := by
    intro k
    apply BitVec.eq_of_toNat_eq
    rw [wordAt_toNat, val_zeroWords]
    simp
  set q0 := (zeroWords (n - t + 1)).set (n - t) (0 + BitVec.ofNat 16 (val x / val (shiftUp n y (n - t)))) with hq0
  have hq0v : val q0 * val y + val x1 = val x := by
    rw [hq0, val_set _ _ _ (by simp) (hzero _), val_zeroWords, hv1, hys]
    rw [hys] at hdig
    have hw : (0 + BitVec.ofNat 16 (val x / (val y * radix ^ (n - t)))).toNat = val x / (val y * radix ^ (n - t)) := by
      rw [show (0 : Word) + _ = _ from BitVec.zero_add _, BitVec.toNat_ofNat, Nat.mod_eq_of_lt (show _ < 2 ^ 16 from hdig)]
    rw [hw, Nat.zero_add]
    have hdm := Nat.div_add_mod (val x) (val y * radix ^ (n - t))
    have hr : val x / (val y * radix ^ (n - t)) * radix ^ (n - t) * val y =
      val y * radix ^ (n - t) * (val x / (val y * radix ^ (n - t))) := by ring
    rw [hr]
    omega
  obtain ⟨st, hst, hlx, hlq, hval, hlt⟩ := divDigits_spec y n (n - t)
    { q := q0, x := x1, shiftY := shiftUp n y (n - t), shiftP := [] } hl1 ht htop (by omega) (by simp [hq0])
    (fun k hk => by simp only [hq0]; rw [wordAt_set_ne _ _ _ _ (by omega)]; exact hzero k)
    (by simp only [hv1, ← hys]; exact Nat.mod_lt _ hyspos)
  simp only at hlq hval
  rw [hq0v] at hval
  have hrem : val (st.remainder t) = val st.x := by
    rw [DivState.remainder, val_take, Nat.mod_eq_of_lt (hlt.trans (val_lt y))]
  refine ⟨st, ?_, hlx, by rw [hlq, hq0]; simp, ?_, ?_, ?_⟩
  · rw [divide, copyWords, ← hn, ← htl, andThen_ok (topDigit_eq he)]
    exact hst
  · rw [DivState.remainder, List.length_take]; omega
  · rw [← hval, Nat.add_comm, Nat.add_mul_div_right _ _ hypos, Nat.div_eq_of_lt hlt, Nat.zero_add]
  · rw [hrem, ← hval, Nat.add_comm, Nat.add_mul_mod_self_right, Nat.mod_eq_of_lt hlt]

/-! ### The buffers -/

/-- The shifted operands fit the working remainder's length (10_state.md rule R40). -/
def DivState.shiftsFit (st : DivState) (n : Nat) : Prop := st.shiftY.length ≤ n ∧ st.shiftP.length ≤ n

theorem multiplyBack_shiftsFit (y : BigNat) (n j : Nat) (qh : Word) (st : DivState) (h : st.shiftsFit n) :
    (multiplyBack y n j qh st).shiftsFit n := by
  rw [multiplyBack]
  split_ifs
  · exact ⟨h.1, by simp⟩
  · exact ⟨by simp, by simp⟩

theorem divDigits_shiftsFit (y : BigNat) (n j : Nat) (st st' : DivState) (h : st.shiftsFit n)
    (he : divDigits y n j st = .ok st') : st'.shiftsFit n := by
  induction j generalizing st with
  | zero => cases he; exact h
  | succ j ih =>
    obtain ⟨st1, h1, h2⟩ := andThen_eq_ok he
    obtain ⟨qh, _, h3⟩ := andThen_eq_ok h1
    obtain ⟨q', _, h4⟩ := andThen_eq_ok h3
    refine ih st1 ?_ h2
    cases h4
    exact multiplyBack_shiftsFit y n j q' st h

theorem divide_shiftsFit (x y : BigNat) (st : DivState) (he : divide x y = .ok st) : st.shiftsFit x.length := by
  obtain ⟨st1, h1, h2⟩ := andThen_eq_ok he
  obtain ⟨r, _, h3⟩ := andThen_eq_ok h1
  refine divDigits_shiftsFit _ _ _ _ _ ?_ h2
  cases h3
  exact ⟨by simp, by simp⟩

/-- `Compute_DIV` (rules R200, R210): it answers the exact quotient and remainder, and the buffers it leaves. -/
theorem computeDiv_spec (w : Work) (x y : BigNat) (hxy : y.length ≤ x.length) (hd : divisorOk y = true) :
    ∃ st, divide x y = .ok st ∧ computeDiv w x y =
      .ok { values := [val x / val y, val x % val y], flag := false, work := w.afterDivide st } := by
  obtain ⟨st, he, _, _, _, hq, hr⟩ := divide_spec x y hxy hd
  exact ⟨st, he, by rw [computeDiv, andThen_ok he, hq, hr]⟩

end Sys2Proof.Machine
end

