-- ==== Sys2Proof/Laws/Memory.lean ====
section
/-! SUPPORT. The laws of OPMEM: read after write, the canonical form, regions (10_state.md rules R30 to R32,
20_memory.md rules R64, R75). -/

namespace Sys2Proof.Machine

/-! ### One word -/

@[simp] theorem Mem.read_write_same (m : Mem) (a : Nat) (v : Word) : (m.write a v).read a = some v := by
  induction m with
  | nil => simp [Mem.write, Mem.read]
  | cons c m ih =>
    obtain ⟨k, w⟩ := c
    rw [Mem.write]
    split_ifs with h1 h2
    · simp [Mem.read]
    · simp [Mem.read]
    · rw [Mem.read, if_neg (by omega), ih]

theorem Mem.read_write_ne (m : Mem) (a b : Nat) (v : Word) (h : b ≠ a) : (m.write a v).read b = m.read b := by
  induction m with
  | nil => simp [Mem.write, Mem.read, Ne.symm h]
  | cons c m ih =>
    obtain ⟨k, w⟩ := c
    rw [Mem.write]
    split_ifs with h1 h2
    · rw [Mem.read, if_neg (Ne.symm h)]
    · rw [Mem.read, Mem.read, if_neg (by omega), if_neg (by omega)]
    · rw [Mem.read, Mem.read, ih]

theorem Mem.risesFrom_mono {lo lo' : Nat} {m : Mem} (h : lo' ≤ lo) (hm : m.risesFrom lo = true) :
    m.risesFrom lo' = true := by
  cases m with
  | nil => rfl
  | cons c m =>
    simp only [Mem.risesFrom, Bool.and_eq_true, decide_eq_true_iff] at hm ⊢
    exact ⟨h.trans hm.1, hm.2⟩

theorem Mem.risesFrom_write (lo : Nat) (m : Mem) (a : Nat) (v : Word) (h : lo ≤ a) (hm : m.risesFrom lo = true) :
    (m.write a v).risesFrom lo = true := by
  induction m generalizing lo with
  | nil => simp [Mem.write, Mem.risesFrom, h]
  | cons c m ih =>
    obtain ⟨k, w⟩ := c
    simp only [Mem.risesFrom, Bool.and_eq_true, decide_eq_true_iff] at hm
    rw [Mem.write]
    split_ifs with h1 h2
    · simp only [Mem.risesFrom, Bool.and_eq_true, decide_eq_true_iff]
      exact ⟨h, by omega, hm.2⟩
    · simp only [Mem.risesFrom, Bool.and_eq_true, decide_eq_true_iff]
      exact ⟨h, by rw [h2]; exact hm.2⟩
    · simp only [Mem.risesFrom, Bool.and_eq_true, decide_eq_true_iff]
      exact ⟨hm.1, ih (k + 1) (by omega) hm.2⟩

/-- A write keeps the canonical form. -/
theorem Mem.wf_write (m : Mem) (a : Nat) (v : Word) (hm : m.wf = true) : (m.write a v).wf = true :=
  Mem.risesFrom_write 0 m a v (Nat.zero_le _) hm

/-- A write inside OPMEM keeps every address inside. -/
theorem Mem.inside_write (n : Nat) (m : Mem) (a : Nat) (v : Word) (ha : a < n) (hm : m.inside n = true) :
    (m.write a v).inside n = true := by
  induction m with
  | nil => simp [Mem.write, Mem.inside, ha]
  | cons c m ih =>
    obtain ⟨k, w⟩ := c
    simp only [Mem.inside, List.all_cons, Bool.and_eq_true, decide_eq_true_iff] at hm
    rw [Mem.write]
    split_ifs with h1 h2
    · simp only [Mem.inside, List.all_cons, Bool.and_eq_true, decide_eq_true_iff]
      exact ⟨ha, hm⟩
    · simp only [Mem.inside, List.all_cons, Bool.and_eq_true, decide_eq_true_iff]
      exact ⟨ha, hm.2⟩
    · simp only [Mem.inside, List.all_cons, Bool.and_eq_true, decide_eq_true_iff]
      exact ⟨hm.1, ih hm.2⟩

theorem Mem.read_below {lo : Nat} {m : Mem} (hm : m.risesFrom lo = true) {a : Nat} (h : a < lo) : m.read a = none := by
  induction m generalizing lo with
  | nil => rfl
  | cons c m ih =>
    obtain ⟨k, w⟩ := c
    simp only [Mem.risesFrom, Bool.and_eq_true, decide_eq_true_iff] at hm
    rw [Mem.read, if_neg (by omega), ih hm.2 (by omega)]

/-- Canonical: memories of one canonical form that read the same are the same data. -/
theorem Mem.eq_of_read_eq {lo : Nat} {m m' : Mem} (hm : m.risesFrom lo = true) (hm' : m'.risesFrom lo = true)
    (h : ∀ a, m.read a = m'.read a) : m = m' := by
  induction m generalizing m' lo with
  | nil => cases m' with
    | nil => rfl
    | cons c' m' => simpa [Mem.read] using h c'.1
  | cons c m ih => cases m' with
    | nil => simpa [Mem.read] using h c.1
    | cons c' m' =>
      obtain ⟨k, w⟩ := c
      obtain ⟨k', w'⟩ := c'
      simp only [Mem.risesFrom, Bool.and_eq_true, decide_eq_true_iff] at hm hm'
      have hk : k = k' := by
        by_contra hne
        rcases Nat.lt_or_gt_of_ne hne with hlt | hlt
        · have := h k
          rw [Mem.read, if_pos rfl, Mem.read, if_neg (by omega), Mem.read_below hm'.2 (by omega)] at this
          cases this
        · have := h k'
          rw [Mem.read, if_neg (by omega), Mem.read_below hm.2 (by omega), Mem.read, if_pos rfl] at this
          cases this
      subst hk
      have hw : w = w' := by simpa [Mem.read] using h k
      subst hw
      congr 1
      refine ih hm.2 hm'.2 fun a => ?_
      have := h a
      simp only [Mem.read] at this
      split_ifs at this with ha
      · subst ha
        rw [Mem.read_below hm.2 (by omega), Mem.read_below hm'.2 (by omega)]
      · exact this

/-! ### Reading a region -/

/-- What a region read answers: as many words as asked for, each the word stored there (20_memory.md rule R64). -/
theorem Mem.readWords_ok {m : Mem} {a n : Nat} {ws : BigNat} (h : m.readWords a n = .ok ws) :
    ws.length = n ∧ ∀ k < n, m.read (a + k) = some (wordAt ws k) := by
  induction n generalizing a ws with
  | zero => cases h; exact ⟨rfl, fun k hk => absurd hk (Nat.not_lt_zero k)⟩
  | succ n ih =>
    rw [Mem.readWords] at h
    cases hr : m.read a with
    | none => simp [hr] at h
    | some w =>
      cases hs : m.readWords (a + 1) n with
      | error e => simp [hr, hs] at h
      | ok vs =>
        simp only [hr, hs, Except.ok.injEq] at h
        subst h
        obtain ⟨hl, hv⟩ := ih hs
        refine ⟨by simp [hl], fun k hk => ?_⟩
        cases k with
        | zero => simpa [wordAt] using hr
        | succ k => simpa [wordAt, Nat.add_comm, Nat.add_left_comm] using hv k (by omega)

/-- A region of written words can be read. -/
theorem Mem.readWords_of_written {m : Mem} {a n : Nat} (h : ∀ k < n, (m.read (a + k)).isSome = true) :
    ∃ ws, m.readWords a n = .ok ws := by
  induction n generalizing a with
  | zero => exact ⟨[], rfl⟩
  | succ n ih =>
    obtain ⟨w, hw⟩ := Option.isSome_iff_exists.mp (h 0 (by omega))
    obtain ⟨ws, hs⟩ := ih (a := a + 1) fun k hk => by
      have := h (k + 1) (by omega)
      rwa [show a + (k + 1) = a + 1 + k by omega] at this
    exact ⟨w :: ws, by rw [Mem.readWords, show m.read a = some w from hw, hs]⟩

/-- A region read that fails names a word of the region that holds no value. -/
theorem Mem.readWords_error {m : Mem} {a n e : Nat} (h : m.readWords a n = .error e) :
    a ≤ e ∧ e < a + n ∧ m.read e = none := by
  induction n generalizing a with
  | zero => cases h
  | succ n ih =>
    rw [Mem.readWords] at h
    cases hr : m.read a with
    | none =>
      simp only [hr, Except.error.injEq] at h
      subst h
      exact ⟨le_rfl, by omega, hr⟩
    | some w =>
      cases hs : m.readWords (a + 1) n with
      | ok vs => simp [hr, hs] at h
      | error e' =>
        simp only [hr, hs, Except.error.injEq] at h
        subst h
        obtain ⟨h1, h2, h3⟩ := ih hs
        exact ⟨by omega, by omega, h3⟩

/-- A region read depends on the region's words alone. -/
theorem Mem.readWords_congr {m m' : Mem} {a n : Nat} (h : ∀ k < n, m.read (a + k) = m'.read (a + k)) :
    m.readWords a n = m'.readWords a n := by
  induction n generalizing a with
  | zero => rfl
  | succ n ih =>
    have h0 : m.read a = m'.read a := h 0 (by omega)
    rw [Mem.readWords, Mem.readWords, h0, ih (a := a + 1) fun k hk => by
      have := h (k + 1) (by omega)
      rwa [show a + (k + 1) = a + 1 + k by omega] at this]

/-! ### Writing a region -/

/-- What a region write does to every word (00_scope.md rule R12). -/
theorem Mem.read_writeValue (m : Mem) (a n v b : Nat) :
    (m.writeValue a n v).read b = if a ≤ b ∧ b < a + n then some (wordOf v (b - a)) else m.read b := by
  induction n generalizing m a v with
  | zero => rw [Mem.writeValue, if_neg (by omega)]
  | succ n ih =>
    rw [Mem.writeValue, ih]
    by_cases h0 : b = a
    · subst h0
      rw [if_neg (by omega), if_pos (by omega), Mem.read_write_same, Nat.sub_self]
    · rw [Mem.read_write_ne _ _ _ _ h0]
      by_cases h1 : a + 1 ≤ b ∧ b < a + 1 + n
      · rw [if_pos h1, if_pos (by omega)]
        obtain ⟨k, rfl⟩ : ∃ k, b = a + 1 + k := ⟨b - (a + 1), by omega⟩
        rw [show a + 1 + k - (a + 1) = k by omega, show a + 1 + k - a = k + 1 by omega, wordOf, wordOf,
          Nat.div_div_eq_div_mul, pow_succ']
      · rw [if_neg h1, if_neg (by omega)]

theorem Mem.wf_writeValue (m : Mem) (a n v : Nat) (hm : m.wf = true) : (m.writeValue a n v).wf = true := by
  induction n generalizing m a v with
  | zero => exact hm
  | succ n ih => exact ih _ _ _ (Mem.wf_write _ _ _ hm)

theorem Mem.inside_writeValue (k : Nat) (m : Mem) (a n v : Nat) (h : a + n ≤ k) (hm : m.inside k = true) :
    (m.writeValue a n v).inside k = true := by
  induction n generalizing m a v with
  | zero => exact hm
  | succ n ih => exact ih _ _ _ (by omega) (Mem.inside_write _ _ _ _ (by omega) hm)

/-- Reading back a region just written gives the value, mod b^n. -/
theorem Mem.readWords_writeValue (m : Mem) (a n v : Nat) :
    ∃ ws, (m.writeValue a n v).readWords a n = .ok ws ∧ ws.length = n ∧ val ws = v % radix ^ n := by
  obtain ⟨ws, hs⟩ := Mem.readWords_of_written (m := m.writeValue a n v) (a := a) (n := n) fun k hk => by
    rw [Mem.read_writeValue, if_pos (by omega)]
    rfl
  obtain ⟨hl, hw⟩ := Mem.readWords_ok hs
  refine ⟨ws, hs, hl, ?_⟩
  have hd : ∀ k ≤ n, val (ws.take k) = v % radix ^ k := by
    intro k hk
    induction k with
    | zero => simp [Nat.mod_one]
    | succ k ih =>
      have h1 := hw k (by omega)
      rw [Mem.read_writeValue, if_pos (by omega), Option.some.injEq, Nat.add_sub_cancel_left] at h1
      rw [val_take_succ ws k (by omega), ih (by omega), ← h1, wordOf_toNat, Nat.mod_pow_succ]
  have := hd n le_rfl
  rwa [← hl, List.take_length, hl] at this

/-! ### Result writes -/

/-- The result writes leave every word outside the result regions (20_memory.md rule R75). -/
theorem Mem.read_storeResults (m : Mem) (rs : List Region) (vs : List Nat) (b : Nat)
    (h : ∀ r ∈ rs, r.has b = false) : (m.storeResults rs vs).read b = m.read b := by
  induction rs generalizing m vs with
  | nil => rfl
  | cons r rs ih => cases vs with
    | nil => rfl
    | cons v vs =>
      rw [Mem.storeResults, ih _ _ fun r' hr' => h r' (List.mem_cons_of_mem _ hr'), Mem.read_writeValue, if_neg]
      have := h r List.mem_cons_self
      intro hc
      simp [Region.has, hc.1, hc.2] at this

theorem Mem.wf_storeResults (m : Mem) (rs : List Region) (vs : List Nat) (hm : m.wf = true) :
    (m.storeResults rs vs).wf = true := by
  induction rs generalizing m vs with
  | nil => exact hm
  | cons r rs ih => cases vs with
    | nil => exact hm
    | cons v vs => exact ih _ _ (Mem.wf_writeValue _ _ _ _ hm)

theorem Mem.inside_storeResults (k : Nat) (m : Mem) (rs : List Region) (vs : List Nat)
    (h : ∀ r ∈ rs, r.inside k = true) (hm : m.inside k = true) : (m.storeResults rs vs).inside k = true := by
  induction rs generalizing m vs with
  | nil => exact hm
  | cons r rs ih => cases vs with
    | nil => exact hm
    | cons v vs =>
      refine ih _ _ (fun r' hr' => h r' (List.mem_cons_of_mem _ hr')) (Mem.inside_writeValue _ _ _ _ _ ?_ hm)
      have := h r List.mem_cons_self
      simpa [Region.inside] using this

end Sys2Proof.Machine
end

