-- ==== Sys2Proof/Laws/Exec.lean ====
section
/-! SUPPORT. The guards of a command, and once and for all what a command's completion step can do. -/

namespace Sys2Proof.Machine

/-! ### A guard that passes -/

theorem checked_ok {i : Instr} {s : State} {k : Outcome} (hl : lengthsOk s.cfg i = true) (hb : boundsOk s.cfg i = true) :
    checked i s k = k := by
  rw [checked, if_pos hl, if_pos hb]

theorem withSrc_ok {x : Src} {s : State} {k : BigNat → Outcome} {ws : BigNat}
    (h : s.mem.readWords x.addr.toNat x.len.toNat = .ok ws) : withSrc x s k = k ws := by
  rw [withSrc, h]

theorem require_ok {e : ErrCode} {ok : Bool} {s : State} {k : Outcome} (h : ok = true) : require e ok s k = k := by
  rw [require, if_pos h]

theorem require_fail {e : ErrCode} {ok : Bool} {s : State} {k : Outcome} (h : ok = false) :
    require e ok s k = .next (s.fail e) := by
  rw [require, h, if_neg Bool.false_ne_true]

theorem finish_ok {i : Instr} {s : State} {m : Except ErrCode Result} {r : Result} (h : m = .ok r) :
    finish i s m = .next (s.succeed (results i) r) := by
  rw [h]
  rfl

/-! ### A guard that led to a result -/

theorem checked_next {i : Instr} {s t : State} {k : Outcome} (h : checked i s k = .next t)
    (ht : t.status.err = false) : lengthsOk s.cfg i = true ∧ boundsOk s.cfg i = true ∧ k = .next t := by
  rw [checked] at h
  split_ifs at h with h1 h2
  · exact ⟨h1, h2, h⟩
  · cases h; simp [State.fail, Status.ofError] at ht
  · cases h; simp [State.fail, Status.ofError] at ht

theorem withSrc_next {x : Src} {s t : State} {k : BigNat → Outcome} (h : withSrc x s k = .next t) :
    ∃ ws, s.mem.readWords x.addr.toNat x.len.toNat = .ok ws ∧ k ws = .next t := by
  rw [withSrc] at h
  cases hr : s.mem.readWords x.addr.toNat x.len.toNat with
  | error a => simp [hr] at h
  | ok ws => exact ⟨ws, rfl, by simpa [hr] using h⟩

theorem require_next {e : ErrCode} {ok : Bool} {s t : State} {k : Outcome} (h : require e ok s k = .next t)
    (ht : t.status.err = false) : ok = true ∧ k = .next t := by
  rw [require] at h
  split_ifs at h with h1
  · exact ⟨h1, h⟩
  · cases h; simp [State.fail, Status.ofError] at ht

theorem finish_next {i : Instr} {s t : State} {m : Except ErrCode Result} (h : finish i s m = .next t)
    (ht : t.status.err = false) : ∃ r, m = .ok r ∧ t = s.succeed (results i) r := by
  cases m with
  | error e => cases h; simp [State.fail, Status.ofError] at ht
  | ok r => cases h; exact ⟨r, rfl, rfl⟩

/-! ### What a completion step can do -/

/-- The three ends of a command: an error with its STATUS and nothing else, the results of a command that passed its
checks, or the fault of an input word that holds no value. -/
inductive ExecEnd (i : Instr) (s : State) : Outcome → Prop where
  | err (e : ErrCode) : ExecEnd i s (.next (s.fail e))
  | ok (r : Result) (hl : lengthsOk s.cfg i = true) (hb : boundsOk s.cfg i = true) :
      ExecEnd i s (.next (s.succeed (results i) r))
  | unwritten (a : Nat) (x : Src) (hx : x ∈ sources i) (hr : (srcRegion x).has a = true) (hm : s.mem.read a = none) :
      ExecEnd i s (.fault (.unwrittenWord a))

theorem ExecEnd.checked {i : Instr} {s : State} {k : Outcome}
    (h : lengthsOk s.cfg i = true → boundsOk s.cfg i = true → ExecEnd i s k) : ExecEnd i s (checked i s k) := by
  rw [Machine.checked]
  split_ifs with h1 h2
  · exact h h1 h2
  · exact .err _
  · exact .err _

theorem ExecEnd.withSrc {i : Instr} {s : State} {x : Src} {k : BigNat → Outcome} (hx : x ∈ sources i)
    (h : ∀ ws, s.mem.readWords x.addr.toNat x.len.toNat = .ok ws → ExecEnd i s (k ws)) :
    ExecEnd i s (withSrc x s k) := by
  rw [Machine.withSrc]
  cases hr : s.mem.readWords x.addr.toNat x.len.toNat with
  | ok ws => exact h ws hr
  | error a =>
    obtain ⟨h1, h2, h3⟩ := Mem.readWords_error hr
    exact .unwritten a x hx (by simp [Region.has, srcRegion, h1, h2]) h3

theorem ExecEnd.require {i : Instr} {s : State} {e : ErrCode} {ok : Bool} {k : Outcome} (h : ok = true → ExecEnd i s k) :
    ExecEnd i s (require e ok s k) := by
  rw [Machine.require]
  split_ifs with h1
  · exact h h1
  · exact .err _

theorem ExecEnd.finish {i : Instr} {s : State} (m : Except ErrCode Result) (hl : lengthsOk s.cfg i = true)
    (hb : boundsOk s.cfg i = true) : ExecEnd i s (finish i s m) := by
  cases m with
  | error e => exact .err e
  | ok r => exact .ok r hl hb

/-- What the completion step of any command can do (40_control.md rules R103, R108). -/
theorem exec_end (i : Instr) (s : State) : ExecEnd i s (exec i s) := by
  cases i with
  | add a b c =>
    exact .checked fun hl hb => .withSrc (by simp [sources]) fun _ _ => .withSrc (by simp [sources]) fun _ _ =>
      .finish _ hl hb
  | sub a b c =>
    exact .checked fun hl hb => .withSrc (by simp [sources]) fun _ _ => .withSrc (by simp [sources]) fun _ _ =>
      .finish _ hl hb
  | mul a b c =>
    exact .checked fun hl hb => .withSrc (by simp [sources]) fun _ _ => .withSrc (by simp [sources]) fun _ _ =>
      .finish _ hl hb
  | div x y q r =>
    exact .checked fun hl hb => .withSrc (by simp [sources]) fun _ _ => .withSrc (by simp [sources]) fun _ _ =>
      .require fun _ => .finish _ hl hb
  | modmul a b p c =>
    exact .checked fun hl hb => .withSrc (by simp [sources]) fun _ _ => .withSrc (by simp [sources]) fun _ _ =>
      .withSrc (by simp [sources]) fun _ _ => .require fun _ => .require fun _ => .finish _ hl hb
  | modexp g e p c =>
    exact .checked fun hl hb => .withSrc (by simp [sources]) fun _ _ => .withSrc (by simp [sources]) fun _ _ =>
      .withSrc (by simp [sources]) fun _ _ => .require fun _ => .require fun _ => .finish _ hl hb
  | addmod a b p c =>
    exact .checked fun hl hb => .withSrc (by simp [sources]) fun _ _ => .withSrc (by simp [sources]) fun _ _ =>
      .withSrc (by simp [sources]) fun _ _ => .require fun _ => .require fun _ => .finish _ hl hb
  | submod a b p c =>
    exact .checked fun hl hb => .withSrc (by simp [sources]) fun _ _ => .withSrc (by simp [sources]) fun _ _ =>
      .withSrc (by simp [sources]) fun _ _ => .require fun _ => .require fun _ => .finish _ hl hb

/-- A completion step that goes on ended in an error or in results. -/
theorem exec_next {i : Instr} {s t : State} (h : exec i s = .next t) :
    (∃ e, t = s.fail e) ∨
      (lengthsOk s.cfg i = true ∧ boundsOk s.cfg i = true ∧ ∃ r, t = s.succeed (results i) r) := by
  have he := exec_end i s
  rw [h] at he
  cases he with
  | err e => exact .inl ⟨e, rfl⟩
  | ok r hl hb => exact .inr ⟨hl, hb, r, rfl⟩

/-- A completion step faults only at an input word that holds no value (10_state.md rule R31). -/
theorem exec_fault {i : Instr} {s : State} {f : Fault} (h : exec i s = .fault f) :
    ∃ a x, f = .unwrittenWord a ∧ x ∈ sources i ∧ (srcRegion x).has a = true ∧ s.mem.read a = none := by
  have he := exec_end i s
  rw [h] at he
  cases he with
  | unwritten a x hx hr hm => exact ⟨a, x, rfl, hx, hr, hm⟩

/-- No command is refused. -/
theorem exec_not_refused (i : Instr) (s : State) (r : Refusal) : exec i s ≠ .refused r := by
  intro h
  have he := exec_end i s
  rw [h] at he
  cases he

end Sys2Proof.Machine
end

