-- ==== Sys2Proof/Laws/Mul.lean ====
section
/-! SUPPORT. The schoolbook product is exact (43_multiply.md rule R190). -/

namespace Sys2Proof.Machine

/-- The sum of the word products of column `k`. -/
def columnSum (a b : BigNat) (k : Nat) : Nat :=
  ∑ i ∈ Finset.range (k + 1), (wordAt a i).toNat * (wordAt b (k - i)).toNat

theorem wordAt_of_length_le (a : BigNat) (k : Nat) (h : a.length ≤ k) : wordAt a k = 0 := by
  simp [wordAt, List.getD, h]

theorem foldl_add_eq_sum (f : Nat → Nat) (lo n acc : Nat) :
    (List.range' lo n).foldl (fun s i => s + f i) acc = acc + ∑ i ∈ Finset.range n, f (lo + i) := by
  induction n generalizing lo acc with
  | zero => simp
  | succ n ih =>
    rw [List.range'_succ, List.foldl_cons, ih, Finset.sum_range_succ', Nat.add_zero]
    simp only [show ∀ i, lo + 1 + i = lo + (i + 1) by intro i; omega, Nat.add_zero]
    omega

/-- The index range of rule R190 holds every non-zero product of the column. -/
theorem addColumn_eq (a b : BigNat) (k acc : Nat) : addColumn a b k acc = acc + columnSum a b k := by
  rw [addColumn, foldl_add_eq_sum (fun i => mulWords (wordAt a i) (wordAt b (k - i))), columnSum]
  congr 1
  rw [← Finset.sum_image (f := fun i => mulWords (wordAt a i) (wordAt b (k - i)))
    (g := fun i => k + 1 - b.length + i) (by intro x _ y _ h; simpa using h)]
  refine Finset.sum_subset ?_ ?_
  · intro i hi
    simp only [Finset.mem_image, Finset.mem_range] at hi ⊢
    omega
  · intro i hi hn
    simp only [Finset.mem_image, Finset.mem_range, not_exists, not_and] at hi hn
    rcases Nat.lt_or_ge i a.length with ha | ha
    · rcases Nat.lt_or_ge (k - i) b.length with hb | hb
      · exact absurd (by omega) (hn (i - (k + 1 - b.length)) (by omega))
      · simp [mulWords, wordAt_of_length_le b _ hb]
    · simp [mulWords, wordAt_of_length_le a _ ha]

theorem wordAt_zero_cons (w : Word) (ws : BigNat) : wordAt (w :: ws) 0 = w := rfl

theorem wordAt_succ_cons (w : Word) (ws : BigNat) (k : Nat) : wordAt (w :: ws) (k + 1) = wordAt ws k := rfl

theorem sum_words (b : BigNat) (n : Nat) (h : b.length ≤ n) :
    ∑ k ∈ Finset.range n, (wordAt b k).toNat * radix ^ k = val b := by
  induction b generalizing n with
  | nil => simp [wordAt]
  | cons w ws ih =>
    obtain ⟨m, rfl⟩ : ∃ m, n = m + 1 := ⟨n - 1, by simp at h; omega⟩
    rw [Finset.sum_range_succ', val_cons, ← ih m (by simpa using h), Finset.mul_sum]
    simp only [wordAt_succ_cons, wordAt_zero_cons, pow_zero, mul_one, pow_succ]
    rw [Nat.add_comm]
    congr 1
    exact Finset.sum_congr rfl fun i _ => by ring

/-- The columns, each at its weight, sum to the product. -/
theorem sum_columns (a b : BigNat) (n : Nat) (h : a.length + b.length ≤ n) :
    ∑ k ∈ Finset.range n, columnSum a b k * radix ^ k = val a * val b := by
  induction a generalizing n with
  | nil => simp [columnSum, wordAt]
  | cons w ws ih =>
    obtain ⟨m, rfl⟩ : ∃ m, n = m + 1 := ⟨n - 1, by simp at h; omega⟩
    have hc : ∀ k, columnSum (w :: ws) b (k + 1) = w.toNat * (wordAt b (k + 1)).toNat + columnSum ws b k := by
      intro k
      rw [columnSum, Finset.sum_range_succ', columnSum, Nat.add_comm]
      simp only [wordAt_succ_cons, wordAt_zero_cons, Nat.sub_zero]
      congr 1
      exact Finset.sum_congr rfl fun i _ => by rw [show k + 1 - (i + 1) = k - i by omega]
    have h0 : columnSum (w :: ws) b 0 = w.toNat * (wordAt b 0).toNat := by simp [columnSum, wordAt_zero_cons]
    have hb := sum_words b (m + 1) (by simp at h; omega)
    rw [Finset.sum_range_succ', pow_zero, mul_one] at hb
    have hs : ∑ k ∈ Finset.range m, columnSum ws b k * radix ^ (k + 1) = radix * (val ws * val b) := by
      rw [← ih m (by simp at h; omega), Finset.mul_sum]
      exact Finset.sum_congr rfl fun i _ => by rw [pow_succ]; ring
    have hw : ∑ k ∈ Finset.range m, w.toNat * (wordAt b (k + 1)).toNat * radix ^ (k + 1) =
        w.toNat * ∑ k ∈ Finset.range m, (wordAt b (k + 1)).toNat * radix ^ (k + 1) := by
      rw [Finset.mul_sum]
      exact Finset.sum_congr rfl fun i _ => by ring
    rw [Finset.sum_range_succ', h0, val_cons]
    simp only [hc, Nat.add_mul, Finset.sum_add_distrib, pow_zero, mul_one]
    rw [hs, hw, ← hb]
    ring

theorem mulColumns_spec (a b : BigNat) (left k acc : Nat) :
    (mulColumns a b left k acc).length = left ∧
      ∃ top, val (mulColumns a b left k acc) + radix ^ left * top =
        acc + ∑ m ∈ Finset.range left, columnSum a b (k + m) * radix ^ m := by
  induction left generalizing k acc with
  | zero => exact ⟨rfl, acc, by simp [mulColumns]⟩
  | succ left ih =>
    obtain ⟨hl, top, ht⟩ := ih (k + 1) (addColumn a b k acc / radix)
    refine ⟨by simp [mulColumns, hl], top, ?_⟩
    have hd := Nat.mod_add_div (addColumn a b k acc) radix
    rw [mulColumns, val_cons, Finset.sum_range_succ', pow_succ, pow_zero, mul_one, BitVec.toNat_ofNat]
    have hs : ∑ m ∈ Finset.range left, columnSum a b (k + (m + 1)) * radix ^ (m + 1) =
        radix * ∑ m ∈ Finset.range left, columnSum a b (k + 1 + m) * radix ^ m := by
      rw [Finset.mul_sum]
      exact Finset.sum_congr rfl fun i _ => by rw [show k + (i + 1) = k + 1 + i by omega, pow_succ]; ring
    have ha := addColumn_eq a b k acc
    rw [hs, show (2 : Nat) ^ 16 = radix from rfl, Nat.add_zero]
    have hm := congrArg (radix * ·) ht
    simp only [Nat.mul_add] at hm
    rw [Nat.mul_assoc, Nat.mul_left_comm (radix ^ left), show k + 0 = k from rfl]
    omega

@[simp] theorem mulFull_length (a b : BigNat) : (mulFull a b).length = a.length + b.length :=
  (mulColumns_spec a b _ 0 0).1

/-- Rule R190: the product is exact; the last carry is 0. -/
theorem mulFull_val (a b : BigNat) : val (mulFull a b) = val a * val b := by
  obtain ⟨_, top, ht⟩ := mulColumns_spec a b (a.length + b.length) 0 0
  simp only [Nat.zero_add] at ht
  rw [sum_columns a b _ le_rfl] at ht
  have hlt : val a * val b < radix ^ (a.length + b.length) := by
    rw [pow_add]
    exact Nat.mul_lt_mul'' (val_lt a) (val_lt b)
  rcases Nat.eq_zero_or_pos top with h0 | h0
  · subst h0; simpa [mulFull] using ht
  · have := Nat.le_mul_of_pos_right (radix ^ (a.length + b.length)) h0
    omega

/-- `Compute_MUL` (rule R190): the exact product. -/
theorem computeMul_spec (w : Work) (a b : BigNat) :
    computeMul w a b = .ok { values := [val a * val b], flag := false, work := w } := by
  rw [computeMul, mulFull_val]

end Sys2Proof.Machine
end

