-- ==== Sys2Proof/Laws/Modular.lean ====
section
/-! SUPPORT. What the modular commands compute, once: ADDMOD, SUBMOD, MODMUL and MODEXP (45_modular.md rules R230 to
R235, 46_modexp.md rules R250 to R254). -/

namespace Sys2Proof.Machine

/-- `Compute_ADDMOD` on reduced operands (rule R231). -/
theorem computeAddmod_spec (w : Work) (a b p : BigNat) (ha : a.length = p.length) (hb : b.length = p.length)
    (hap : val a < val p) (hbp : val b < val p) :
    computeAddmod w a b p = .ok { values := [(val a + val b) % val p], flag := false, work := w } := by
  have hab : a.length = b.length := by omega
  have hl : (vadd a b).1.length = p.length := by rw [vadd_length a b hab, ha]
  have hpl := val_lt p
  rw [computeAddmod, vadd_carry a b hab, geq_spec _ _ _ hl rfl, vadd_val a b hab, ha]
  split_ifs with hc
  · rw [vsub_val _ _ hl, hl, vadd_val a b hab, ha]
    rw [Bool.or_eq_true, decide_eq_true_iff, decide_eq_true_iff] at hc
    congr 3
    generalize radix ^ p.length = N at *
    rcases Nat.lt_or_ge (val a + val b) N with hN | hN
    · rw [Nat.mod_eq_of_lt hN] at hc ⊢
      rw [show val a + val b + N - val p = val a + val b - val p + N by omega, Nat.add_mod_right,
        Nat.mod_eq_sub_mod (show val p ≤ val a + val b by omega), Nat.mod_eq_of_lt (by omega), Nat.mod_eq_of_lt (by omega)]
    · rw [Nat.mod_eq_sub_mod hN, Nat.mod_eq_of_lt (show val a + val b - N < N by omega),
        Nat.mod_eq_sub_mod (show val p ≤ val a + val b by omega), Nat.mod_eq_of_lt (show val a + val b - val p < val p by omega),
        show val a + val b - N + N - val p = val a + val b - val p by omega, Nat.mod_eq_of_lt (by omega)]
  · rw [vadd_val a b hab, ha]
    rw [Bool.or_eq_true, decide_eq_true_iff, decide_eq_true_iff] at hc
    push Not at hc
    rw [Nat.mod_eq_of_lt hc.1] at hc ⊢
    rw [Nat.mod_eq_of_lt hc.2]

/-- `Compute_SUBMOD` on reduced operands (rule R233). -/
theorem computeSubmod_spec (w : Work) (a b p : BigNat) (ha : a.length = p.length) (hb : b.length = p.length)
    (hap : val a < val p) (hbp : val b < val p) :
    computeSubmod w a b p = .ok { values := [(val a + val p - val b) % val p], flag := false, work := w } := by
  have hab : a.length = b.length := by omega
  have hl : (vsub a b).1.length = p.length := by rw [vsub_length a b hab, ha]
  have hpl := val_lt p
  rw [computeSubmod, vsub_borrow a b hab]
  simp only [decide_eq_true_iff]
  congr 3
  split_ifs with hc
  · rw [vadd_val _ _ hl, hl, vsub_val a b hab, ha]
    generalize radix ^ p.length = N at *
    rw [Nat.mod_eq_of_lt (show val a + N - val b < N by omega),
      show val a + N - val b + val p = val a + val p - val b + N by omega, Nat.add_mod_right,
      Nat.mod_eq_of_lt (by omega), Nat.mod_eq_of_lt (by omega)]
  · rw [vsub_val_of_le a b hab (by omega), show val a + val p - val b = val a - val b + val p by omega, Nat.add_mod_right,
      Nat.mod_eq_of_lt (by omega)]

/-- `modmul` (rules R234, R235): it answers the product's remainder, in as many words as the modulus has; and the
buffers it leaves. -/
theorem modmul_spec (w : Work) (a b p : BigNat) (ha : a.length = p.length) (hb : b.length = p.length)
    (hp : divisorOk p = true) :
    ∃ r st, divide (mulFull a b) p = .ok st ∧
      modmul w a b p = .ok (r, { w.afterDivide st with prod := mulFull a b }) ∧ r.length = p.length ∧
      val r = val a * val b % val p := by
  obtain ⟨st, he, _, _, hl, _, hr⟩ := divide_spec (mulFull a b) p (by rw [mulFull_length]; omega) hp
  exact ⟨_, st, he, by rw [modmul, andThen_ok he], hl, by rw [hr, mulFull_val]⟩

/-- `Compute_MODMUL` (rule R235). -/
theorem computeModmul_spec (w : Work) (a b p : BigNat) (ha : a.length = p.length) (hb : b.length = p.length)
    (hp : divisorOk p = true) :
    ∃ w', computeModmul w a b p = .ok { values := [val a * val b % val p], flag := false, work := w' } := by
  obtain ⟨r, st, _, he, _, hv⟩ := modmul_spec w a b p ha hb hp
  exact ⟨_, by rw [computeModmul, andThen_ok he, hv]⟩

/-! ### MODEXP -/

theorem oneWords_length (n : Nat) : (oneWords n).length = n := by simp [oneWords]

theorem oneWords_val (n : Nat) (h : 1 ≤ n) : val (oneWords n) = 1 := by
  obtain ⟨m, rfl⟩ : ∃ m, n = m + 1 := ⟨n - 1, by omega⟩
  simp [oneWords, zeroWords, List.take_succ_cons]
  exact val_zeroWords m

/-- One iteration (rule R251): the accumulator of `E` becomes the accumulator of `2E + bit`. -/
theorem expBit_spec (g e p : BigNat) (i E : Nat) (st : BigNat × Work) (hg : g.length = p.length)
    (hs : st.1.length = p.length) (hp : divisorOk p = true) (hv : val st.1 = val g ^ E % val p) :
    ∃ st', expBit g e p i st = .ok st' ∧ st'.1.length = p.length ∧
      val st'.1 = val g ^ (2 * E + (bitAt e i).toNat) % val p := by
  obtain ⟨r, d, _, he, hl, hr⟩ := modmul_spec st.2 st.1 st.1 p hs hs hp
  have hsq : val r = val g ^ (2 * E) % val p := by
    rw [hr, hv, ← Nat.mul_mod, ← pow_add, Nat.two_mul]
  rw [expBit, andThen_ok he]
  cases hb : bitAt e i with
  | false => exact ⟨_, rfl, hl, by simpa using hsq⟩
  | true =>
    obtain ⟨r', d', _, he', hl', hr'⟩ := modmul_spec { st.2.afterDivide d with prod := mulFull st.1 st.1 } r g p hl hg hp
    refine ⟨_, he', hl', ?_⟩
    rw [hr', hsq, Nat.mod_mul_mod, Bool.toNat_true, pow_succ]

/-- The loop invariant of rule R252: after the iteration for bit i the accumulator is g^floor(e / 2^i) mod p. -/
theorem expLoop_spec (g e p : BigNat) (i : Nat) (st : BigNat × Work) (hg : g.length = p.length)
    (hs : st.1.length = p.length) (hp : divisorOk p = true) (hv : val st.1 = val g ^ (val e / 2 ^ i) % val p) :
    ∃ st', expLoop g e p i st = .ok st' ∧ st'.1.length = p.length ∧ val st'.1 = val g ^ val e % val p := by
  induction i generalizing st with
  | zero => exact ⟨st, rfl, hs, by simpa using hv⟩
  | succ i ih =>
    obtain ⟨st1, he, hl, hv1⟩ := expBit_spec g e p i _ st hg hs hp hv
    have hE : 2 * (val e / 2 ^ (i + 1)) + (bitAt e i).toNat = val e / 2 ^ i := by
      rw [bitAt_spec, Nat.testBit_eq_decide_div_mod_eq, pow_succ, ← Nat.div_div_eq_div_mul]
      rcases Nat.mod_two_eq_zero_or_one (val e / 2 ^ i) with h | h <;> simp [h] <;> omega
    rw [hE] at hv1
    obtain ⟨st', he', hl', hv'⟩ := ih st1 hl hv1
    exact ⟨st', by rw [expLoop, andThen_ok he, he'], hl', hv'⟩

/-- Rules R251, R252, R254: the exponentiation answers g^e mod p, with g^0 = 1. -/
theorem modexp_spec (w : Work) (g e p : BigNat) (hg : g.length = p.length) (hp : divisorOk p = true) :
    ∃ st, modexp w g e p = .ok st ∧ st.1.length = p.length ∧ val st.1 = val g ^ val e % val p := by
  have hd : 1 < p.length ∧ wordAt p (p.length - 1) ≠ 0 := by simpa [divisorOk] using hp
  have hp1 : 1 < val p := by
    have h1 : (wordAt p (p.length - 1)).toNat ≠ 0 := fun h0 => hd.2 (BitVec.eq_of_toNat_eq h0)
    rw [top_word_eq p (by omega)] at h1
    have h2 : radix ^ (p.length - 1) ≤ val p := (Nat.div_pos_iff.mp (Nat.pos_of_ne_zero h1)).2
    exact lt_of_lt_of_le (Nat.one_lt_pow (by omega) (by decide)) h2
  have h1 : val (oneWords p.length) = 1 % val p := by rw [oneWords_val _ (by omega), Nat.mod_eq_of_lt hp1]
  rw [modexp]
  cases hb : bitLength e with
  | none => exact ⟨_, rfl, oneWords_length _, by rw [bitLength_none e hb, pow_zero]; exact h1⟩
  | some t =>
    refine expLoop_spec g e p (t + 1) (oneWords p.length, w) hg (oneWords_length _) hp ?_
    rw [Nat.div_eq_of_lt (bitLength_some e t hb).2, pow_zero]
    exact h1

/-- `Compute_MODEXP` (rule R252). -/
theorem computeModexp_spec (w : Work) (g e p : BigNat) (hg : g.length = p.length) (hp : divisorOk p = true) :
    ∃ w', computeModexp w g e p = .ok { values := [val g ^ val e % val p], flag := false, work := w' } := by
  obtain ⟨st, he, _, hv⟩ := modexp_spec w g e p hg hp
  exact ⟨_, by rw [computeModexp, andThen_ok he, hv]⟩

end Sys2Proof.Machine
end

