-- ==== Sys2Proof/Laws/PerInstr.lean ====
section
/-! SUPPORT. Families of statements about every command as syntax, one lemma per constructor. -/

namespace Sys2Proof.Laws.OpField

/-- The OP field of a command's encoding lies in the opcode map of 30_encoding.md rule R82, and its register words are
nine. -/
def Statement (i : Instr) : Prop :=
  1 ≤ (encode i).op.toNat ∧ (encode i).op.toNat ≤ 8 ∧ (encodeWords i).length = 9

theorem add (a b : Src) (c : BitVec 16) : Statement (.add a b c) := by
  refine ⟨?_, ?_, rfl⟩ <;> simp [encode, Cmd.two]

theorem sub (a b : Src) (c : BitVec 16) : Statement (.sub a b c) := by
  refine ⟨?_, ?_, rfl⟩ <;> simp [encode, Cmd.two]

theorem mul (a b : Src) (c : BitVec 16) : Statement (.mul a b c) := by
  refine ⟨?_, ?_, rfl⟩ <;> simp [encode, Cmd.two]

theorem div (x y : Src) (q r : BitVec 16) : Statement (.div x y q r) := by
  refine ⟨?_, ?_, rfl⟩ <;> simp [encode, Cmd.two]

theorem modmul (a b p : Src) (c : BitVec 16) : Statement (.modmul a b p c) := by
  refine ⟨?_, ?_, rfl⟩ <;> simp [encode, Cmd.three, Cmd.two]

theorem modexp (g e p : Src) (c : BitVec 16) : Statement (.modexp g e p c) := by
  refine ⟨?_, ?_, rfl⟩ <;> simp [encode, Cmd.three, Cmd.two]

theorem addmod (a b p : Src) (c : BitVec 16) : Statement (.addmod a b p c) := by
  refine ⟨?_, ?_, rfl⟩ <;> simp [encode, Cmd.three, Cmd.two]

theorem submod (a b p : Src) (c : BitVec 16) : Statement (.submod a b p c) := by
  refine ⟨?_, ?_, rfl⟩ <;> simp [encode, Cmd.three, Cmd.two]

end Sys2Proof.Laws.OpField
end

