-- ==== Sys2Proof/Laws/Safety.lean ====
section
/-! SUPPORT. The size of the working buffers, command by command (10_state.md rule R40). -/

namespace Sys2Proof.Machine

theorem Work.bounded_iff (w : Work) (n : Nat) :
    w.bounded n = true ↔ w.rem.length ≤ 2 * n + 1 ∧ w.prod.length ≤ 2 * n + 1 ∧ w.acc.length ≤ 2 * n + 1 ∧
      w.shiftY.length ≤ 2 * n + 1 ∧ w.shiftP.length ≤ 2 * n + 1 := by
  simp only [Work.bounded, Bool.and_eq_true, decide_eq_true_iff, and_assoc]

theorem afterDivide_bounded {w : Work} {n : Nat} {x y : BigNat} {st : DivState} (h : divide x y = .ok st)
    (hyx : y.length ≤ x.length) (hd : divisorOk y = true) (hx : x.length ≤ 2 * n) (hw : w.bounded n = true) :
    (w.afterDivide st).bounded n = true := by
  obtain ⟨h1, h2⟩ := divide_shiftsFit x y st h
  obtain ⟨st', h3, h4, _⟩ := divide_spec x y hyx hd
  rw [h, Except.ok.injEq] at h3
  subst h3
  rw [Work.bounded_iff] at hw ⊢
  exact ⟨by simp only [Work.afterDivide]; omega, hw.2.1, hw.2.2.1, by simp only [Work.afterDivide]; omega,
    by simp only [Work.afterDivide]; omega⟩

theorem modmul_bounded {w : Work} {n : Nat} {a b p : BigNat} {r : BigNat × Work} (h : modmul w a b p = .ok r)
    (ha : a.length = p.length) (hb : b.length = p.length) (hp : p.length ≤ n) (hd : divisorOk p = true)
    (hw : w.bounded n = true) : r.2.bounded n = true ∧ r.1.length = p.length := by
  obtain ⟨r', st, h1, h2, h3, _⟩ := modmul_spec w a b p ha hb hd
  rw [h, Except.ok.injEq] at h2
  subst h2
  have hb' := afterDivide_bounded h1 (by rw [mulFull_length]; omega) hd (by rw [mulFull_length]; omega) hw
  rw [Work.bounded_iff] at hb' ⊢
  exact ⟨⟨hb'.1, by simp only [mulFull_length]; omega, hb'.2.2⟩, h3⟩

theorem expBit_bounded {n i : Nat} {g e p : BigNat} {st st' : BigNat × Work} (h : expBit g e p i st = .ok st')
    (hg : g.length = p.length) (hs : st.1.length = p.length) (hp : p.length ≤ n) (hd : divisorOk p = true)
    (hw : st.2.bounded n = true) : st'.2.bounded n = true ∧ st'.1.length = p.length := by
  obtain ⟨sq, h1, h2⟩ := andThen_eq_ok h
  have hsq := modmul_bounded h1 hs hs hp hd hw
  split_ifs at h2
  · exact modmul_bounded h2 hsq.2 hg hp hd hsq.1
  · cases h2
    exact hsq

theorem expLoop_bounded {n i : Nat} {g e p : BigNat} {st st' : BigNat × Work} (h : expLoop g e p i st = .ok st')
    (hg : g.length = p.length) (hs : st.1.length = p.length) (hp : p.length ≤ n) (hd : divisorOk p = true)
    (hw : st.2.bounded n = true) : st'.2.bounded n = true ∧ st'.1.length = p.length := by
  induction i generalizing st with
  | zero => cases h; exact ⟨hw, hs⟩
  | succ i ih =>
    obtain ⟨sq, h1, h2⟩ := andThen_eq_ok h
    have hsq := expBit_bounded h1 hg hs hp hd hw
    exact ih h2 hsq.2 hsq.1

theorem computeModexp_bounded {w : Work} {n : Nat} {g e p : BigNat} {r : Result} (h : computeModexp w g e p = .ok r)
    (hg : g.length = p.length) (hp : p.length ≤ n) (hd : divisorOk p = true) (hw : w.bounded n = true) :
    r.work.bounded n = true := by
  obtain ⟨st, h1, h2⟩ := andThen_eq_ok h
  cases h2
  have key : st.2.bounded n = true ∧ st.1.length = p.length := by
    rw [modexp] at h1
    split at h1
    · cases h1; exact ⟨hw, oneWords_length _⟩
    · exact expLoop_bounded h1 hg (oneWords_length _) hp hd hw
  obtain ⟨k1, k2⟩ := key
  rw [Work.bounded_iff] at k1 ⊢
  exact ⟨k1.1, k1.2.1, by show st.1.length ≤ _; omega, k1.2.2.2⟩

end Sys2Proof.Machine
end

