-- ==== Sys2Proof/Laws/State.lean ====
section
/-! SUPPORT. One lemma per field and update of State, all by rfl, so that no proof unfolds a record update. -/

namespace Sys2Proof.Machine

/-! ### fail -/

@[simp] theorem State.fail_cfg (s : State) (e : ErrCode) : (s.fail e).cfg = s.cfg := rfl

@[simp] theorem State.fail_status (s : State) (e : ErrCode) : (s.fail e).status = Status.ofError e := rfl

@[simp] theorem State.fail_doneIe (s : State) (e : ErrCode) : (s.fail e).doneIe = s.doneIe := rfl

@[simp] theorem State.fail_regs (s : State) (e : ErrCode) : (s.fail e).regs = s.regs := rfl

@[simp] theorem State.fail_mem (s : State) (e : ErrCode) : (s.fail e).mem = s.mem := rfl

@[simp] theorem State.fail_phase (s : State) (e : ErrCode) : (s.fail e).phase = .idle := rfl

@[simp] theorem State.fail_snap (s : State) (e : ErrCode) : (s.fail e).snap = s.snap := rfl

@[simp] theorem State.fail_work (s : State) (e : ErrCode) : (s.fail e).work = s.work := rfl

@[simp] theorem State.fail_delay (s : State) (e : ErrCode) : (s.fail e).delay = 0 := rfl

@[simp] theorem State.fail_draws (s : State) (e : ErrCode) : (s.fail e).draws = s.draws := rfl

@[simp] theorem State.fail_reply (s : State) (e : ErrCode) : (s.fail e).reply = s.reply := rfl

@[simp] theorem State.fail_host (s : State) (e : ErrCode) : (s.fail e).host = s.host := rfl

/-! ### succeed -/

@[simp] theorem State.succeed_cfg (s : State) (rs : List Region) (r : Result) : (s.succeed rs r).cfg = s.cfg := rfl

@[simp] theorem State.succeed_status (s : State) (rs : List Region) (r : Result) : (s.succeed rs r).status = Status.ofSuccess r.flag := rfl

@[simp] theorem State.succeed_doneIe (s : State) (rs : List Region) (r : Result) : (s.succeed rs r).doneIe = s.doneIe := rfl

@[simp] theorem State.succeed_regs (s : State) (rs : List Region) (r : Result) : (s.succeed rs r).regs = s.regs := rfl

@[simp] theorem State.succeed_mem (s : State) (rs : List Region) (r : Result) : (s.succeed rs r).mem = s.mem.storeResults rs r.values := rfl

@[simp] theorem State.succeed_phase (s : State) (rs : List Region) (r : Result) : (s.succeed rs r).phase = .idle := rfl

@[simp] theorem State.succeed_snap (s : State) (rs : List Region) (r : Result) : (s.succeed rs r).snap = s.snap := rfl

@[simp] theorem State.succeed_work (s : State) (rs : List Region) (r : Result) : (s.succeed rs r).work = r.work := rfl

@[simp] theorem State.succeed_delay (s : State) (rs : List Region) (r : Result) : (s.succeed rs r).delay = 0 := rfl

@[simp] theorem State.succeed_draws (s : State) (rs : List Region) (r : Result) : (s.succeed rs r).draws = s.draws := rfl

@[simp] theorem State.succeed_reply (s : State) (rs : List Region) (r : Result) : (s.succeed rs r).reply = s.reply := rfl

@[simp] theorem State.succeed_host (s : State) (rs : List Region) (r : Result) : (s.succeed rs r).host = s.host := rfl

/-! ### accept -/

@[simp] theorem State.accept_cfg (s : State) (k : Cmd) : (s.accept k).cfg = s.cfg := rfl

@[simp] theorem State.accept_status (s : State) (k : Cmd) : (s.accept k).status = Status.zero := rfl

@[simp] theorem State.accept_doneIe (s : State) (k : Cmd) : (s.accept k).doneIe = s.doneIe := rfl

@[simp] theorem State.accept_regs (s : State) (k : Cmd) : (s.accept k).regs = s.regs := rfl

@[simp] theorem State.accept_mem (s : State) (k : Cmd) : (s.accept k).mem = s.mem := rfl

@[simp] theorem State.accept_phase (s : State) (k : Cmd) : (s.accept k).phase = .busy := rfl

@[simp] theorem State.accept_snap (s : State) (k : Cmd) : (s.accept k).snap = k := rfl

@[simp] theorem State.accept_work (s : State) (k : Cmd) : (s.accept k).work = s.work := rfl

@[simp] theorem State.accept_delay (s : State) (k : Cmd) : (s.accept k).delay = Config.latency s.draws := rfl

@[simp] theorem State.accept_draws (s : State) (k : Cmd) : (s.accept k).draws = s.draws + 1 := rfl

@[simp] theorem State.accept_reply (s : State) (k : Cmd) : (s.accept k).reply = s.reply := rfl

@[simp] theorem State.accept_host (s : State) (k : Cmd) : (s.accept k).host = s.host := rfl

/-! ### clear -/

@[simp] theorem State.clear_cfg (s : State) : (s.clear).cfg = s.cfg := rfl

@[simp] theorem State.clear_status (s : State) : (s.clear).status = Status.zero := rfl

@[simp] theorem State.clear_doneIe (s : State) : (s.clear).doneIe = s.doneIe := rfl

@[simp] theorem State.clear_regs (s : State) : (s.clear).regs = s.regs := rfl

@[simp] theorem State.clear_mem (s : State) : (s.clear).mem = s.mem := rfl

@[simp] theorem State.clear_phase (s : State) : (s.clear).phase = s.phase := rfl

@[simp] theorem State.clear_snap (s : State) : (s.clear).snap = s.snap := rfl

@[simp] theorem State.clear_work (s : State) : (s.clear).work = s.work := rfl

@[simp] theorem State.clear_delay (s : State) : (s.clear).delay = s.delay := rfl

@[simp] theorem State.clear_draws (s : State) : (s.clear).draws = s.draws := rfl

@[simp] theorem State.clear_reply (s : State) : (s.clear).reply = s.reply := rfl

@[simp] theorem State.clear_host (s : State) : (s.clear).host = s.host := rfl

/-! ### hardReset -/

@[simp] theorem State.hardReset_cfg (s : State) : (s.hardReset).cfg = s.cfg := rfl

@[simp] theorem State.hardReset_status (s : State) : (s.hardReset).status = Status.zero := rfl

@[simp] theorem State.hardReset_doneIe (s : State) : (s.hardReset).doneIe = false := rfl

@[simp] theorem State.hardReset_regs (s : State) : (s.hardReset).regs = Cmd.zero := rfl

@[simp] theorem State.hardReset_mem (s : State) : (s.hardReset).mem = [] := rfl

@[simp] theorem State.hardReset_phase (s : State) : (s.hardReset).phase = .idle := rfl

@[simp] theorem State.hardReset_snap (s : State) : (s.hardReset).snap = Cmd.zero := rfl

@[simp] theorem State.hardReset_work (s : State) : (s.hardReset).work = Work.empty := rfl

@[simp] theorem State.hardReset_delay (s : State) : (s.hardReset).delay = 0 := rfl

@[simp] theorem State.hardReset_draws (s : State) : (s.hardReset).draws = s.draws := rfl

@[simp] theorem State.hardReset_reply (s : State) : (s.hardReset).reply = s.reply := rfl

@[simp] theorem State.hardReset_host (s : State) : (s.hardReset).host = s.host := rfl

/-! ### advance -/

@[simp] theorem State.advance_cfg (s : State) (rest : List HostAction) : (s.advance rest).cfg = s.cfg := rfl

@[simp] theorem State.advance_status (s : State) (rest : List HostAction) : (s.advance rest).status = s.status := rfl

@[simp] theorem State.advance_doneIe (s : State) (rest : List HostAction) : (s.advance rest).doneIe = s.doneIe := rfl

@[simp] theorem State.advance_regs (s : State) (rest : List HostAction) : (s.advance rest).regs = s.regs := rfl

@[simp] theorem State.advance_mem (s : State) (rest : List HostAction) : (s.advance rest).mem = s.mem := rfl

@[simp] theorem State.advance_phase (s : State) (rest : List HostAction) : (s.advance rest).phase = s.phase := rfl

@[simp] theorem State.advance_snap (s : State) (rest : List HostAction) : (s.advance rest).snap = s.snap := rfl

@[simp] theorem State.advance_work (s : State) (rest : List HostAction) : (s.advance rest).work = s.work := rfl

@[simp] theorem State.advance_delay (s : State) (rest : List HostAction) : (s.advance rest).delay = s.delay - 1 := rfl

@[simp] theorem State.advance_draws (s : State) (rest : List HostAction) : (s.advance rest).draws = s.draws := rfl

@[simp] theorem State.advance_reply (s : State) (rest : List HostAction) : (s.advance rest).reply = s.reply := rfl

@[simp] theorem State.advance_host (s : State) (rest : List HostAction) : (s.advance rest).host = rest := rfl

/-! ### withRegs -/

@[simp] theorem State.withRegs_cfg (s : State) (k : Cmd) : (s.withRegs k).cfg = s.cfg := rfl

@[simp] theorem State.withRegs_status (s : State) (k : Cmd) : (s.withRegs k).status = s.status := rfl

@[simp] theorem State.withRegs_doneIe (s : State) (k : Cmd) : (s.withRegs k).doneIe = s.doneIe := rfl

@[simp] theorem State.withRegs_regs (s : State) (k : Cmd) : (s.withRegs k).regs = k := rfl

@[simp] theorem State.withRegs_mem (s : State) (k : Cmd) : (s.withRegs k).mem = s.mem := rfl

@[simp] theorem State.withRegs_phase (s : State) (k : Cmd) : (s.withRegs k).phase = s.phase := rfl

@[simp] theorem State.withRegs_snap (s : State) (k : Cmd) : (s.withRegs k).snap = s.snap := rfl

@[simp] theorem State.withRegs_work (s : State) (k : Cmd) : (s.withRegs k).work = s.work := rfl

@[simp] theorem State.withRegs_delay (s : State) (k : Cmd) : (s.withRegs k).delay = s.delay := rfl

@[simp] theorem State.withRegs_draws (s : State) (k : Cmd) : (s.withRegs k).draws = s.draws := rfl

@[simp] theorem State.withRegs_reply (s : State) (k : Cmd) : (s.withRegs k).reply = s.reply := rfl

@[simp] theorem State.withRegs_host (s : State) (k : Cmd) : (s.withRegs k).host = s.host := rfl

/-! ### withFetchWord -/

@[simp] theorem State.withFetchWord_cfg (s : State) (nbits w : Nat) : (s.withFetchWord nbits w).cfg = s.cfg := rfl

@[simp] theorem State.withFetchWord_status (s : State) (nbits w : Nat) : (s.withFetchWord nbits w).status = Status.zero := rfl

@[simp] theorem State.withFetchWord_doneIe (s : State) (nbits w : Nat) : (s.withFetchWord nbits w).doneIe = s.doneIe := rfl

@[simp] theorem State.withFetchWord_regs (s : State) (nbits w : Nat) : (s.withFetchWord nbits w).regs = s.regs := rfl

@[simp] theorem State.withFetchWord_mem (s : State) (nbits w : Nat) : (s.withFetchWord nbits w).mem = s.mem := rfl

@[simp] theorem State.withFetchWord_phase (s : State) (nbits w : Nat) : (s.withFetchWord nbits w).phase = .busy := rfl

@[simp] theorem State.withFetchWord_snap (s : State) (nbits w : Nat) : (s.withFetchWord nbits w).snap = Cmd.ofWords (tableWords nbits w) := rfl

@[simp] theorem State.withFetchWord_work (s : State) (nbits w : Nat) : (s.withFetchWord nbits w).work = s.work := rfl

@[simp] theorem State.withFetchWord_delay (s : State) (nbits w : Nat) : (s.withFetchWord nbits w).delay = 0 := rfl

@[simp] theorem State.withFetchWord_draws (s : State) (nbits w : Nat) : (s.withFetchWord nbits w).draws = s.draws + 1 := rfl

@[simp] theorem State.withFetchWord_reply (s : State) (nbits w : Nat) : (s.withFetchWord nbits w).reply = s.reply := rfl

@[simp] theorem State.withFetchWord_host (s : State) (nbits w : Nat) : (s.withFetchWord nbits w).host = s.host := rfl

/-! ### STATUS -/

@[simp] theorem State.busy_of_phase_busy {s : State} (h : s.phase = .busy) : s.busy = true := by simp [State.busy, h]

@[simp] theorem State.busy_of_phase_idle {s : State} (h : s.phase = .idle) : s.busy = false := by simp [State.busy, h]

theorem State.busy_eq_false_iff (s : State) : s.busy = false ↔ s.phase = .idle := by
  cases h : s.phase <;> simp [State.busy, h]

theorem State.busy_eq_true_iff (s : State) : s.busy = true ↔ s.phase = .busy := by simp [State.busy]

@[simp] theorem Status.ofSuccess_done (f : Bool) : (Status.ofSuccess f).done = true := rfl

@[simp] theorem Status.ofSuccess_err (f : Bool) : (Status.ofSuccess f).err = false := rfl

@[simp] theorem Status.ofSuccess_flag (f : Bool) : (Status.ofSuccess f).flag = f := rfl

@[simp] theorem Status.ofSuccess_errcode (f : Bool) : (Status.ofSuccess f).errcode = 0 := rfl

@[simp] theorem Status.ofError_done (e : ErrCode) : (Status.ofError e).done = true := rfl

@[simp] theorem Status.ofError_err (e : ErrCode) : (Status.ofError e).err = true := rfl

@[simp] theorem Status.ofError_flag (e : ErrCode) : (Status.ofError e).flag = false := rfl

@[simp] theorem Status.ofError_errcode (e : ErrCode) : (Status.ofError e).errcode = e.bits := rfl

/-- Two error codes with one number are one code. -/
theorem ErrCode.bits_injective {e f : ErrCode} (h : e.bits = f.bits) : e = f := by
  revert h
  cases e <;> cases f <;> decide

/-- No error code is numbered 0 (60_exceptions.md rule R301). -/
theorem ErrCode.bits_ne_zero (e : ErrCode) : e.bits ≠ 0 := by cases e <;> decide

end Sys2Proof.Machine
end

