-- ==== Sys2Proof/Laws/Step.lean ====
section
/-! SUPPORT. What one step can do: the engine's completion step, or one host action (40_control.md rule R109). -/

namespace Sys2Proof.Machine

theorem engineDue_eq_true_iff (s : State) : s.engineDue = true ↔ s.phase = .busy ∧ (s.host = [] ∨ s.delay = 0) := by
  simp [State.engineDue, State.busy]

theorem step_of_due {s : State} (h : s.engineDue = true) : step s = complete s := if_pos h

theorem step_of_not_due {s : State} (h : s.engineDue = false) : step s = hostTurn s := by
  rw [step, h, if_neg Bool.false_ne_true]

theorem complete_command {s : State} {i : Instr} (h : decode s.snap = .command i) : complete s = exec i s := by
  rw [complete, h]

theorem complete_reserved {s : State} {op : BitVec 4} (h : decode s.snap = .reservedOp op) :
    complete s = .next (s.fail .badOpcode) := by
  rw [complete, h]

/-- What a completion step that goes on leaves: an error's STATUS alone, or the results of its command. -/
theorem complete_next {s t : State} (h : complete s = .next t) :
    (∃ e, t = s.fail e) ∨
      ∃ i r, decode s.snap = .command i ∧ exec i s = .next t ∧ lengthsOk s.cfg i = true ∧
        boundsOk s.cfg i = true ∧ t = s.succeed (results i) r := by
  cases hd : decode s.snap with
  | reservedOp op =>
    rw [complete_reserved hd] at h
    cases h
    exact .inl ⟨_, rfl⟩
  | command i =>
    rw [complete_command hd] at h
    rcases exec_next h with he | ⟨hl, hb, r, hr⟩
    · exact .inl he
    · exact .inr ⟨i, r, rfl, h, hl, hb, hr⟩

/-! ### Host accesses -/

theorem hostRegRead_next {off : Nat} {s t : State} (h : hostRegRead off s = .next t) :
    ∃ r, Reg.ofOffset off = some r ∧ t = { s with reply := .reg (s.readReg r) } := by
  rw [hostRegRead] at h
  cases hr : Reg.ofOffset off with
  | none => simp [hr] at h
  | some r =>
    simp only [hr, Host.Outcome.next.injEq] at h
    exact ⟨r, rfl, h.symm⟩

theorem hostRegWrite_next {off : Nat} {v : Word32} {s t : State} (h : hostRegWrite off v s = .next t) :
    ∃ r, Reg.ofOffset off = some r ∧ t = s.writeReg v r := by
  rw [hostRegWrite] at h
  cases hr : Reg.ofOffset off with
  | none => simp [hr] at h
  | some r =>
    simp only [hr, Host.Outcome.next.injEq] at h
    exact ⟨r, rfl, h.symm⟩

theorem hostMemRead_next {a : Nat} {s t : State} (h : hostMemRead a s = .next t) :
    a < s.cfg.memWords ∧
      ((s.busy = true ∧ t = { s with reply := .word (Config.freeWord s.draws), draws := s.draws + 1 }) ∨
        (s.busy = false ∧ ∃ w, s.mem.read a = some w ∧ t = { s with reply := .word w })) := by
  rw [hostMemRead] at h
  split_ifs at h with h1 h2
  · cases h
    exact ⟨by omega, .inl ⟨h2, rfl⟩⟩
  · cases hr : s.mem.read a with
    | none => simp [hr] at h
    | some w =>
      simp only [hr, Host.Outcome.next.injEq] at h
      exact ⟨by omega, .inr ⟨by simpa using h2, w, rfl, h.symm⟩⟩

theorem hostMemWrite_next {a : Nat} {v : Word} {s t : State} (h : hostMemWrite a v s = .next t) :
    a < s.cfg.memWords ∧
      ((s.busy = true ∧ t = s) ∨ (s.busy = false ∧ t = { s with mem := s.mem.write a v })) := by
  rw [hostMemWrite] at h
  split_ifs at h with h1 h2
  · cases h
    exact ⟨by omega, .inl ⟨h2, rfl⟩⟩
  · cases h
    exact ⟨by omega, .inr ⟨by simpa using h2, rfl⟩⟩

/-- A register is found at its own offset (10_state.md rule R22). -/
@[simp] theorem Reg.ofOffset_offset (r : Reg) : Reg.ofOffset r.offset = some r := by cases r <;> rfl

/-- A CTRL write leaves everything but STATUS, the phase, the snapshot and the model's own countdown and counter. -/
theorem writeCtrl_cases (s : State) (v : Word32) :
    s.writeCtrl v = s ∨ (s.busy = false ∧ (s.writeCtrl v = s.clear ∨ s.writeCtrl v = s.accept s.regs)) := by
  rw [State.writeCtrl]
  cases hb : s.busy with
  | true => exact .inl rfl
  | false => cases h1 : v.getLsbD 1 <;> cases h0 : v.getLsbD 0 <;> simp [State.clear, State.accept]

end Sys2Proof.Machine
end

