-- ==== Sys2Proof/Laws/WellFormed.lean ====
section
/-! SUPPORT. The machine's LENGTH and BOUNDS checks are the legality of WellFormed.lean (30_encoding.md rule R85,
40_control.md rule R104). -/

namespace Sys2Proof.Machine

theorem lengthsOk_eq (cfg : Config) (i : Instr) : lengthsOk cfg i = i.lengthsLegal cfg := by
  cases i <;>
    simp [lengthsOk, lengthRule, sources, Instr.lengthsLegal, Config.lenOk, Bool.and_assoc]

theorem boundsOk_eq (cfg : Config) (i : Instr) : boundsOk cfg i = i.regionsInside cfg := by
  cases i <;>
    simp [boundsOk, sources, results, srcRegion, resultAt, Region.inside, Instr.regionsInside, Config.fits,
      Bool.and_assoc]

/-- A well-formed command passes both checks. -/
theorem checks_of_wellFormed {cfg : Config} {i : Instr} (h : i.wellFormed cfg = true) :
    lengthsOk cfg i = true ∧ boundsOk cfg i = true := by
  rw [Instr.wellFormed, Bool.and_eq_true] at h
  exact ⟨lengthsOk_eq cfg i ▸ h.1, boundsOk_eq cfg i ▸ h.2⟩

end Sys2Proof.Machine
end

