-- ==== Sys2Proof/Tests/Slice0.lean ====
section
/-! SUPPORT. Tests on the vectors and programs of 95_test_vectors.md (expected values are the spec's own), the smoke
tests of WellFormed, and for every obligation with hypotheses a state and operands that meet them. -/

namespace Sys2Proof.Tests

open Sys2Proof Sys2Proof.Machine

-- One proof after another: proofs that wait for the kernel would otherwise each hold a thread.
set_option Elab.async false

/-! ### Small states and observations -/

/-- The reset state with values written to OPMEM: (word address, number of words, value). -/
def stored (ms : List (Nat × Nat × Nat)) : State :=
  { State.reset with mem := ms.foldl (fun m r => m.writeValue r.1 r.2.1 r.2.2) [] }

/-- The same with a command captured and its completion step due. -/
def running (i : Instr) (ms : List (Nat × Nat × Nat)) : State :=
  { stored ms with phase := .busy, snap := encode i }

/-- An operand. -/
def src (a n : Nat) : Src := { addr := BitVec.ofNat 16 a, len := BitVec.ofNat 16 n }

/-- The state an outcome goes on with; reset where it does not. -/
def nextOf : Outcome → State
  | .next t => t
  | .fault _ => State.reset
  | .refused _ => State.reset

theorem eq_nextOf (o : Outcome) (h : Outcome.goesOn o = true) : o = .next (nextOf o) := by
  cases o with
  | next t => rfl
  | fault f => cases h
  | refused r => cases h

/-- The STATUS word and `n` words from `a` on, after an outcome that goes on. -/
def seen (o : Outcome) (a n : Nat) : Option (Nat × Option (List Nat)) :=
  match o with
  | .next t =>
    match t.mem.readWords a n with
    | .ok ws => some (t.statusWord.toNat, some (ws.map BitVec.toNat))
    | .error _ => some (t.statusWord.toNat, none)
  | .fault _ => none
  | .refused _ => none

/-! ### WellFormed refuses each kind of ill-formed command, and accepts the one beside it -/

theorem test_wellFormed_accepts :
    (Instr.add (src 0 64) (src 64 64) 4032).wellFormed Config.default = true ∧
      (Instr.div (src 0 2) (src 2 2) 8 10).wellFormed Config.default = true ∧
      (Instr.modexp (src 0 2) (src 2 1) (src 4 2) 4094).wellFormed Config.default = true := by decide

theorem test_wellFormed_length_zero : (Instr.add (src 0 0) (src 0 0) 0).wellFormed Config.default = false := by decide

theorem test_wellFormed_length_above_nmax :
    (Instr.mul (src 0 65) (src 0 1) 0).wellFormed Config.default = false := by decide

theorem test_wellFormed_two_lengths_differ :
    (Instr.sub (src 0 2) (src 0 3) 8).wellFormed Config.default = false := by decide

theorem test_wellFormed_divisor_longer :
    (Instr.div (src 0 2) (src 0 3) 8 16).wellFormed Config.default = false := by decide

theorem test_wellFormed_three_lengths_differ :
    (Instr.modmul (src 0 2) (src 0 2) (src 0 3) 8).wellFormed Config.default = false ∧
      (Instr.addmod (src 0 2) (src 0 3) (src 0 3) 8).wellFormed Config.default = false ∧
      (Instr.submod (src 0 3) (src 0 2) (src 0 3) 8).wellFormed Config.default = false ∧
      (Instr.modexp (src 0 1) (src 0 2) (src 0 2) 8).wellFormed Config.default = false := by decide

theorem test_wellFormed_input_outside :
    (Instr.add (src 4095 2) (src 0 2) 8).wellFormed Config.default = false ∧
      (Instr.add (src 0 2) (src 0xFFFF 2) 8).wellFormed Config.default = false ∧
      (Instr.addmod (src 0 1) (src 0 1) (src 4096 1) 8).wellFormed Config.default = false := by decide

theorem test_wellFormed_result_outside :
    (Instr.add (src 0 2) (src 2 2) 4095).wellFormed Config.default = false ∧
      (Instr.mul (src 0 2) (src 2 1) 4094).wellFormed Config.default = false ∧
      (Instr.div (src 0 3) (src 4 2) 4095 8).wellFormed Config.default = false ∧
      (Instr.div (src 0 3) (src 4 2) 8 4095).wellFormed Config.default = false := by decide

/-! ### Decoding: register words written out from 30_encoding.md rules R82, R84 -/

/-- ADD, the encoding of program P1. -/
theorem test_decode_add :
    decodeWords [0x00000001, 0x0000, 0x0002, 0x0002, 0x0002, 0, 0, 0x0004, 0] =
      .command (.add (src 0 2) (src 2 2) 4) := by decide

/-- SUB, OP 0x2, with every descriptor field distinct and the unused ones not 0. -/
theorem test_decode_sub :
    decodeWords [0x00000002, 0x0011, 0x0012, 0x0013, 0x0014, 0x0015, 0x0016, 0x0017, 0x0018] =
      .command (.sub (src 0x11 0x12) (src 0x13 0x14) 0x17) := by decide

/-- MUL, OP 0x3, with reserved bits set in every word. -/
theorem test_decode_mul :
    decodeWords [0xFFFFFFF3, 0xFFFF0011, 0xFFFF0012, 0xFFFF0013, 0xFFFF0014, 0, 0, 0xFFFF0017, 0] =
      .command (.mul (src 0x11 0x12) (src 0x13 0x14) 0x17) := by decide

/-- DIV, the encoding of program P2. -/
theorem test_decode_div :
    decodeWords [0x00000004, 0x0010, 0x0004, 0x0020, 0x0003, 0, 0, 0x0030, 0x0040] =
      .command (.div (src 0x10 4) (src 0x20 3) 0x30 0x40) := by decide

/-- MODMUL, OP 0x5. -/
theorem test_decode_modmul :
    decodeWords [0x00000005, 0x0011, 0x0012, 0x0013, 0x0014, 0x0015, 0x0016, 0x0017, 0x0018] =
      .command (.modmul (src 0x11 0x12) (src 0x13 0x14) (src 0x15 0x16) 0x17) := by decide

/-- MODEXP, the encoding of program P3. -/
theorem test_decode_modexp :
    decodeWords [0x00000006, 0x0100, 0x0002, 0x0102, 0x0002, 0x0104, 0x0002, 0x0106, 0] =
      .command (.modexp (src 0x100 2) (src 0x102 2) (src 0x104 2) 0x106) := by decide

/-- ADDMOD, the first command of program P6. -/
theorem test_decode_addmod :
    decodeWords [0x00000007, 0x0000, 0x0001, 0x0001, 0x0001, 0x0000, 0x0001, 0x0003, 0] =
      .command (.addmod (src 0 1) (src 1 1) (src 0 1) 3) := by decide

/-- SUBMOD, the second command of program P6. -/
theorem test_decode_submod :
    decodeWords [0x00000008, 0x0001, 0x0001, 0x0002, 0x0001, 0x0000, 0x0001, 0x0003, 0] =
      .command (.submod (src 1 1) (src 2 1) (src 0 1) 3) := by decide

/-- The opcode table numbers OPCODE's bits from bit 0 on (R83): four bits give the OP value. -/
theorem test_decodeTableWord :
    ((List.range 16).map fun w => (decodeTableWord 4 w).isSome) =
      [false, true, true, true, true, true, true, true, true,
       false, false, false, false, false, false, false] := by decide

/-- The command placed by withFetchWord is the one the step runs; lengths 0 end it in LENGTH, a reserved OP in
BAD_OPCODE (40_control.md rule R103). -/
theorem test_withFetchWord :
    (step (State.reset.withFetchWord 8 0x03)).goesOn = true ∧
      (nextOf (step (State.reset.withFetchWord 8 0x03))).statusWord = 0x206#32 ∧
      (nextOf (step (State.reset.withFetchWord 8 0x00))).statusWord = 0x106#32 := by decide +kernel

/-! ### Vectors, at most two for each command -/

/-- V-ADD-1, program P1. -/
theorem test_add_carry :
    seen (step (running (.add (src 0 2) (src 2 2) 4) [(0, 2, 0x1234FFFF), (2, 2, 0xEDCB0001)])) 4 2 =
      some (0x0A, some [0x0000, 0x0000]) := by decide +kernel

/-- V-ADD-E5: the result replaces a. -/
theorem test_add_in_place :
    seen (step (running (.add (src 0 2) (src 2 2) 0) [(0, 2, 0x1234FFFF), (2, 2, 0xEDCB0001)])) 0 4 =
      some (0x0A, some [0x0000, 0x0000, 0x0001, 0xEDCB]) := by decide +kernel

/-- V-SUB-1. -/
theorem test_sub_borrow_between_words :
    seen (step (running (.sub (src 0 2) (src 2 2) 4) [(0, 2, 0x00010000), (2, 2, 0x00000001)])) 4 2 =
      some (0x02, some [0xFFFF, 0x0000]) := by decide +kernel

/-- V-SUB-2. -/
theorem test_sub_borrow_out :
    seen (step (running (.sub (src 0 2) (src 2 2) 4) [(0, 2, 1), (2, 2, 2)])) 4 2 =
      some (0x0A, some [0xFFFF, 0xFFFF]) := by decide +kernel

/-- V-MUL-1. -/
theorem test_mul_full :
    seen (step (running (.mul (src 0 2) (src 2 2) 4) [(0, 2, 0xFFFFFFFF), (2, 2, 0xFFFFFFFF)])) 4 4 =
      some (0x02, some [0x0001, 0x0000, 0xFFFE, 0xFFFF]) := by decide +kernel

/-- V-MUL-2. -/
theorem test_mul_unequal_lengths :
    seen (step (running (.mul (src 0 1) (src 2 2) 4) [(0, 1, 2), (2, 2, 0x80008000)])) 4 3 =
      some (0x02, some [0x0000, 0x0001, 0x0001]) := by decide +kernel

/-- V-DIV-7, program P2: the add-back path. -/
theorem test_div_add_back :
    seen (step (running (.div (src 0x10 4) (src 0x20 3) 0x30 0x32)
      [(0x10, 4, 0x95CA5A5F1DEF5535), (0x20, 3, 0x9C7D0000666A)])) 0x30 5 =
      some (0x02, some [0xF50A, 0x0000, 0xE311, 0xBBE7, 0x9C7C]) := by decide +kernel

/-- V-DIV-3: a non-zero top quotient word. -/
theorem test_div_top_digit :
    seen (step (running (.div (src 0 4) (src 4 2) 8 11) [(0, 4, 0xFFFFFFFFFFFFFFFF), (4, 2, 0xFFFFFFFF)])) 8 5 =
      some (0x02, some [0x0001, 0x0000, 0x0001, 0x0000, 0x0000]) := by decide +kernel

/-- V-MOD-9. -/
theorem test_modmul :
    seen (step (running (.modmul (src 0 2) (src 2 2) (src 4 2) 6) [(0, 2, 0x10002), (2, 2, 0x10001), (4, 2, 0x10003)]))
      6 2 = some (0x02, some [0x0002, 0x0000]) := by decide +kernel

/-- V-MOD-E3: a modulus of one word. -/
theorem test_modmul_short_modulus :
    seen (step (running (.modmul (src 0 1) (src 1 1) (src 2 1) 3) [(0, 1, 1), (1, 1, 1), (2, 1, 0xFFF1)])) 3 1 =
      some (0x406, none) := by decide +kernel

/-- V-EXP-2. -/
theorem test_modexp :
    seen (step (running (.modexp (src 0 2) (src 2 1) (src 4 2) 6) [(0, 2, 2), (2, 1, 3), (4, 2, 0x10003)])) 6 2 =
      some (0x02, some [0x0008, 0x0000]) := by decide +kernel

/-- V-EXP-8: 0^0 = 1. -/
theorem test_modexp_zero_zero :
    seen (step (running (.modexp (src 0 2) (src 2 1) (src 4 2) 6) [(0, 2, 0), (2, 1, 0), (4, 2, 0x10003)])) 6 2 =
      some (0x02, some [0x0001, 0x0000]) := by decide +kernel

/-- V-MOD-1: the sum carries out of the word. -/
theorem test_addmod_carry :
    seen (step (running (.addmod (src 0 1) (src 1 1) (src 2 1) 3) [(0, 1, 0xFFF0), (1, 1, 0xFFF0), (2, 1, 0xFFF1)]))
      3 1 = some (0x02, some [0xFFEF]) := by decide +kernel

/-- V-MOD-E1: a = p. -/
theorem test_addmod_range :
    seen (step (running (.addmod (src 0 1) (src 1 1) (src 2 1) 3) [(0, 1, 0xFFF1), (1, 1, 1), (2, 1, 0xFFF1)]))
      3 1 = some (0x506, none) := by decide +kernel

/-- V-MOD-5, the second command of program P6. -/
theorem test_submod_borrow :
    seen (step (running (.submod (src 1 1) (src 2 1) (src 0 1) 3) [(0, 1, 0xFFF1), (1, 1, 3), (2, 1, 5)])) 3 1 =
      some (0x02, some [0xFFEF]) := by decide +kernel

/-- V-MOD-7. -/
theorem test_submod_from_zero :
    seen (step (running (.submod (src 1 1) (src 2 1) (src 0 1) 3) [(0, 1, 0xFFF1), (1, 1, 0), (2, 1, 0xFFF0)])) 3 1 =
      some (0x02, some [0x0001]) := by decide +kernel

/-! ### The primitives, L2.0 of 95_test_vectors.md -/

/-- V-P-3, V-P-4, V-P-5. -/
theorem test_word_add_sub :
    addWord 0x1234 0x4321 true = (0x5556, false) ∧ subWord 5 5 true = (0xFFFF, true) ∧
      subWord 0 0xFFFF true = (0, true) := by decide

/-- V-P-8, V-P-9, V-P-10, V-P-11. -/
theorem test_compare_and_shift :
    geq [1, 2] [1, 2] 2 = true ∧ geq [0xFFFF, 1] [0, 2] 2 = false ∧ shiftUp 4 [1, 2] 1 = [0, 1, 2, 0] ∧
      shiftUp 3 [1, 2, 3] 1 = [0, 1, 2] := by decide

/-- V-P-12 to V-P-15. -/
theorem test_multiply_divide_words :
    mulWords 0xFFFF 0xFFFF = 0xFFFE0001 ∧ mulWordByVector 0xFFFF [0xFFFF, 0xFFFF] = [0x0001, 0xFFFF, 0xFFFE] ∧
      div2by1 1 0 3 = some 0x5555 ∧ div2by1 0x7FFF 0xFFFF 0x8000 = some 0xFFFF ∧ div2by1 1 1 0 = none := by decide +kernel

/-- V-P-16 to V-P-20. -/
theorem test_bit_lengths :
    wordBitLength 0x11 = some 4 ∧ bitLength [0, 0x8000] = some 31 ∧ bitLength [1, 1] = some 16 ∧
      bitLength [1, 0, 0] = some 0 ∧ bitAt [1, 1] 16 = true ∧ bitAt [1, 1] 15 = false := by decide +kernel

/-! ### Control, L2.6 of 95_test_vectors.md -/

/-- V-CTL-3: bits 31:4 of OPCODE are not stored. -/
theorem test_opcode_reads_back_four_bits :
    (State.reset.writeReg 0x13 .opcode).readReg .opcode = 0x3#32 := by decide

/-- V-CTL-4, V-CTL-5, V-CTL-6, V-CTL-8. -/
theorem test_ctrl_strobes :
    ((State.reset.fail .length).writeCtrl 0x2).statusWord = 0#32 ∧
      (State.reset.writeCtrl 0x1).statusWord = 1#32 ∧ (State.reset.writeCtrl 0x3).statusWord = 1#32 ∧
      ((running (.add (src 0 2) (src 2 2) 4) []).writeCtrl 0x3).snap = encode (.add (src 0 2) (src 2 2) 4) := by
  decide +kernel

/-- V-CTL-7: irq is a level, DONE and DONE_IE, until a CLEAR. -/
theorem test_irq_level :
    ((State.reset.writeReg 1 .inten).fail .length).irq = true ∧
      (((State.reset.writeReg 1 .inten).fail .length).writeCtrl 0x2).irq = false ∧
      (((State.reset.writeReg 1 .inten).fail .length).writeReg 0 .inten).irq = false := by decide

/-! ### Witnesses: for every obligation with hypotheses, values that meet them together -/

/-- P1 before its completion step, with a countdown left over and INTEN set. -/
def addState : State :=
  { running (.add (src 0 2) (src 2 2) 4) [(0, 2, 0x1234FFFF), (2, 2, 0xEDCB0001)] with doneIe := true }

/-- The same with a bad length. -/
def badState : State := running (.add (src 0 2) (src 2 3) 4) []

theorem addState_completes : complete addState = .next (nextOf (complete addState)) :=
  eq_nextOf _ (by decide +kernel)

theorem badState_completes : complete badState = .next (nextOf (complete badState)) :=
  eq_nextOf _ (by decide +kernel)

theorem witness_RegisterWordsDecodeToTheirCommand :
    ∃ (i : Instr) (ws : List Word32),
      (regWordAt ws 0).setWidth 4 = ((regWordAt (encodeWords i) 0).setWidth 4 : BitVec 4) ∧
      ∀ k, 1 ≤ k → k < 9 →
        (regWordAt ws k).setWidth 16 = ((regWordAt (encodeWords i) k).setWidth 16 : BitVec 16) := by
  refine ⟨.div (src 0xFFFF 4) (src 0x20 0xFFFF) 0x30 0x40,
    [0xABCDEF04, 0xFFFFFFFF, 4, 0x20, 0x1FFFF, 0, 0, 0x30, 0x80000040, 7], by decide, ?_⟩
  intro k h1 h2
  interval_cases k <;> decide

theorem witness_ReservedOpValuesAreRejected :
    decode { Cmd.zero with op := 0x0 } = .reservedOp 0x0 ∧ decode { Cmd.zero with op := 0x9 } = .reservedOp 0x9 ∧
      decode { Cmd.zero with op := 0xF } = .reservedOp 0xF := by decide

/-- A captured tuple for each clause; the unused fields hold no legal operand. -/
theorem witness_UnusedFieldsDoNotMatter :
    ∃ (s : State) (am lm ad : BitVec 16) (t : State),
      (s.snap.op = 1 ∨ s.snap.op = 2 ∨ s.snap.op = 3) ∧ complete s = .next t ∧
      { s.snap with am := am, lm := lm, ad := ad } ≠ s.snap :=
  ⟨addState, 0xFFFF, 0xFFFF, 0xFFFF, _, by decide, addState_completes, by decide⟩

theorem witness_UnusedFieldsDoNotMatter_div :
    ∃ (s : State) (am lm : BitVec 16) (f : Fault), s.snap.op = 4 ∧ complete s = .fault f ∧
      { s.snap with am := am, lm := lm } ≠ s.snap :=
  ⟨running (.div (src 0 2) (src 2 2) 4 6) [], 0xFFFF, 0xFFFF, .unwrittenWord 0, by decide, rfl, by decide⟩

theorem witness_UnusedFieldsDoNotMatter_modular :
    ∃ (s : State) (ad : BitVec 16) (f : Fault),
      (s.snap.op = 5 ∨ s.snap.op = 6 ∨ s.snap.op = 7 ∨ s.snap.op = 8) ∧ complete s = .fault f ∧
      { s.snap with ad := ad } ≠ s.snap :=
  ⟨running (.submod (src 0 1) (src 1 1) (src 2 1) 3) [], 0xFFFF, .unwrittenWord 0, by decide, rfl, by decide⟩

theorem witness_StepRunsTheCapturedCommand :
    (∃ s : State, s.phase = .busy ∧ s.delay = 0 ∧ s.host = [.wait] ∧
      decode s.snap = .command (.add (src 0 2) (src 2 2) 4)) ∧
    (∃ s : State, s.phase = .busy ∧ s.host = [] ∧ s.delay = 5 ∧ decode s.snap = .reservedOp 0) ∧
    (∃ s : State, s.phase = .busy ∧ s.delay ≠ 0 ∧ s.host = [.wait, .reset]) ∧
    (∃ s : State, s.phase = .idle ∧ s.host = [.wait]) ∧ ∃ s : State, s.phase = .idle ∧ s.host = [] :=
  ⟨⟨{ running (.add (src 0 2) (src 2 2) 4) [] with host := [.wait] }, by decide⟩,
    ⟨{ State.reset with phase := .busy, delay := 5 }, by decide⟩,
    ⟨{ State.reset with phase := .busy, delay := 5, host := [.wait, .reset] }, by decide⟩,
    ⟨{ State.reset with host := [.wait] }, by decide⟩, ⟨State.reset, by decide⟩⟩

theorem witness_CompletionReadsTheSnapshotOnly : ∃ s t : State, complete s = .next t := ⟨_, _, addState_completes⟩

theorem witness_WorkingBuffersDoNotCarryOver : ∃ s t : State, complete s = .next t := ⟨_, _, addState_completes⟩

theorem witness_AddResultIsExact :
    ∃ (a b : Src) (c : BitVec 16) (s : State) (va vb : BigNat),
      (Instr.add a b c).wellFormed s.cfg = true ∧ s.holds a va ∧ s.holds b vb :=
  ⟨src 0 2, src 2 2, 4, addState, [0xFFFF, 0x1234], [0x0001, 0xEDCB], by decide, rfl,
    rfl⟩

theorem witness_SubResultIsExact :
    ∃ (a b : Src) (c : BitVec 16) (s : State) (va vb : BigNat),
      (Instr.sub a b c).wellFormed s.cfg = true ∧ s.holds a va ∧ s.holds b vb :=
  ⟨src 0 2, src 2 2, 4094, addState, [0xFFFF, 0x1234], [0x0001, 0xEDCB], by decide, rfl,
    rfl⟩

theorem witness_MulResultIsExact :
    ∃ (a b : Src) (c : BitVec 16) (s : State) (va vb : BigNat),
      (Instr.mul a b c).wellFormed s.cfg = true ∧ s.holds a va ∧ s.holds b vb :=
  ⟨src 0 1, src 1 2, 4093, addState, [0xFFFF], [0x1234, 0x0001], by decide, rfl,
    rfl⟩

/-- The operands of P2. -/
def divState : State := stored [(0x10, 4, 0x95CA5A5F1DEF5535), (0x20, 3, 0x9C7D0000666A)]

theorem witness_DivResultIsExact :
    ∃ (x y : Src) (q r : BitVec 16) (s : State) (vx vy : BigNat),
      (Instr.div x y q r).wellFormed s.cfg = true ∧ s.holds x vx ∧ s.holds y vy ∧
      1 < y.len.toNat ∧ wordAt vy (y.len.toNat - 1) ≠ 0 :=
  ⟨src 0x10 4, src 0x20 3, 0x30, 0x40, divState, [0x5535, 0x1DEF, 0x5A5F, 0x95CA], [0x666A, 0x0000, 0x9C7D],
    by decide, rfl, rfl, by decide, by decide⟩

/-- One-word modular operands: p, a, b. -/
def modState : State := stored [(0, 1, 0xFFF1), (1, 1, 3), (2, 1, 5)]

theorem witness_AddmodResultIsTheModularSum :
    ∃ (a b p : Src) (c : BitVec 16) (s : State) (va vb vp : BigNat),
      (Instr.addmod a b p c).wellFormed s.cfg = true ∧ s.holds a va ∧ s.holds b vb ∧ s.holds p vp ∧
      wordAt vp (p.len.toNat - 1) ≠ 0 ∧ val va < val vp ∧ val vb < val vp :=
  ⟨src 1 1, src 2 1, src 0 1, 3, modState, [3], [5], [0xFFF1], by decide, rfl,
    rfl, rfl, by decide, by decide, by decide⟩

theorem witness_SubmodResultIsTheModularDifference :
    ∃ (a b p : Src) (c : BitVec 16) (s : State) (va vb vp : BigNat),
      (Instr.submod a b p c).wellFormed s.cfg = true ∧ s.holds a va ∧ s.holds b vb ∧ s.holds p vp ∧
      wordAt vp (p.len.toNat - 1) ≠ 0 ∧ val va < val vp ∧ val vb < val vp :=
  ⟨src 1 1, src 2 1, src 0 1, 3, modState, [3], [5], [0xFFF1], by decide, rfl,
    rfl, rfl, by decide, by decide, by decide⟩

/-- Two-word modular operands of V-MOD-9 with an exponent 3 at 6 and a zero exponent at 7. -/
def expState : State := stored [(0, 2, 0x10002), (2, 2, 0x10001), (4, 2, 0x10003), (6, 1, 3), (7, 1, 0)]

theorem witness_ModmulResultIsTheModularProduct :
    ∃ (a b p : Src) (c : BitVec 16) (s : State) (va vb vp : BigNat),
      (Instr.modmul a b p c).wellFormed s.cfg = true ∧ s.holds a va ∧ s.holds b vb ∧ s.holds p vp ∧
      1 < p.len.toNat ∧ wordAt vp (p.len.toNat - 1) ≠ 0 ∧ val va < val vp ∧ val vb < val vp :=
  ⟨src 0 2, src 2 2, src 4 2, 8, expState, [2, 1], [1, 1], [3, 1], by decide, rfl,
    rfl, rfl, by decide, by decide, by decide, by decide⟩

theorem witness_ModexpResultIsThePower :
    ∃ (g e p : Src) (c : BitVec 16) (s : State) (vg ve vp : BigNat),
      (Instr.modexp g e p c).wellFormed s.cfg = true ∧ s.holds g vg ∧ s.holds e ve ∧ s.holds p vp ∧
      1 < p.len.toNat ∧ wordAt vp (p.len.toNat - 1) ≠ 0 ∧ val vg < val vp :=
  ⟨src 0 2, src 6 1, src 4 2, 8, expState, [2, 1], [3], [3, 1], by decide, rfl,
    rfl, rfl, by decide, by decide, by decide⟩

/-- The iteration for bit 0 of e = 3, from A = g. -/
theorem witness_ModexpResultIsThePower_loop :
    ∃ (g e p : BigNat) (i : Nat) (st : BigNat × Work), g.length = p.length ∧ st.1.length = p.length ∧
      1 < p.length ∧ wordAt p (p.length - 1) ≠ 0 ∧ val st.1 = val g ^ (val e / 2 ^ (i + 1)) % val p :=
  ⟨[2, 0], [3], [3, 1], 0, ([2, 0], Work.empty), by decide +kernel⟩

theorem witness_ModexpZeroExponentGivesOne :
    ∃ (g e p : Src) (c : BitVec 16) (s : State) (vg ve vp : BigNat),
      (Instr.modexp g e p c).wellFormed s.cfg = true ∧ s.holds g vg ∧ s.holds e ve ∧ s.holds p vp ∧
      1 < p.len.toNat ∧ wordAt vp (p.len.toNat - 1) ≠ 0 ∧ val vg < val vp ∧ ∀ w ∈ ve, w = 0 :=
  ⟨src 0 2, src 7 1, src 4 2, 8, expState, [2, 1], [0], [3, 1], by decide, rfl, rfl, rfl, by decide, by decide,
    by decide, fun _ h => List.mem_singleton.mp h⟩

/-- V-ADD-1 and V-SUB-5: the addition carries. -/
theorem witness_AddThenSubRestores :
    ∃ (a b b' : Src) (c d : BitVec 16) (s t : State) (va vb : BigNat),
      (Instr.add a b c).wellFormed s.cfg = true ∧ s.holds a va ∧ s.holds b vb ∧ exec (.add a b c) s = .next t ∧
      (Instr.sub { addr := c, len := a.len } b' d).wellFormed s.cfg = true ∧ t.holds b' vb :=
  ⟨src 0 2, src 2 2, src 2 2, 4, 6, addState, nextOf (exec (.add (src 0 2) (src 2 2) 4) addState),
    [0xFFFF, 0x1234], [0x0001, 0xEDCB], by decide, rfl, rfl,
    eq_nextOf _ (by decide +kernel), by decide, rfl⟩

theorem witness_ModularResultsAreReduced :
    (∃ s t : State, s.holds (src 0 1) [0xFFF1] ∧ exec (.addmod (src 1 1) (src 2 1) (src 0 1) 3) s = .next t ∧
      t.status.err = false) ∧
    (∃ s t : State, s.holds (src 0 1) [0xFFF1] ∧ exec (.submod (src 1 1) (src 2 1) (src 0 1) 3) s = .next t ∧
      t.status.err = false) ∧
    ∃ s t : State, s.holds (src 4 2) [3, 1] ∧ exec (.modmul (src 0 2) (src 2 2) (src 4 2) 8) s = .next t ∧
      t.status.err = false :=
  ⟨⟨modState, _, rfl, eq_nextOf _ (by decide +kernel), by decide +kernel⟩,
    ⟨modState, _, rfl, eq_nextOf _ (by decide +kernel), by decide +kernel⟩,
    ⟨expState, _, rfl, eq_nextOf _ (by decide +kernel), by decide +kernel⟩⟩

/-- The quotient region 0x30 to 0x31 and the remainder region 0x31 to 0x33 overlap in one word. -/
theorem witness_DivRemainderWinsWhereRegionsOverlap :
    ∃ s t : State, s.holds (src 0x10 4) [0x5535, 0x1DEF, 0x5A5F, 0x95CA] ∧ s.holds (src 0x20 3) [0x666A, 0x0000, 0x9C7D] ∧
      exec (.div (src 0x10 4) (src 0x20 3) 0x30 0x31) s = .next t ∧ t.status.err = false ∧
      (∃ k < 3, (0x31 : Nat) + k = 0x30 + 1) ∧ ∃ k < 2, (0x30 : Nat) + k < 0x31 ∨ 0x31 + 3 ≤ 0x30 + k :=
  ⟨divState, _, rfl, rfl, eq_nextOf _ (by decide +kernel),
    by decide +kernel, ⟨0, by decide⟩, ⟨0, by decide⟩⟩

/-- V-DIV-7 on entry to position 0: the digit that takes the add-back. -/
theorem witness_DivisionDigitIsExact :
    ∃ (y : BigNat) (j : Nat) (st : DivState), DigitEntry st.x y j :=
  ⟨[0x666A, 0x0000, 0x9C7D], 0, { q := [0, 0], x := [0x5535, 0x1DEF, 0x5A5F, 0x95CA], shiftY := [], shiftP := [] },
    by decide +kernel⟩

/-- V-DIV-2: step 1 of the whole division, then the first of its two positions. -/
theorem witness_DivisionEntryIsEstablishedAndKept :
    (divisorOk [0x0001, 0x8000] = true ∧ ([0x0001, 0x8000] : BigNat).length < ([0, 0, 0, 0x8000] : BigNat).length) ∧
      ∃ (y : BigNat) (j : Nat) (st st' : DivState), DigitEntry st.x y (j + 1) ∧
        divDigit y st.x.length (j + 1) st = .ok st' :=
  ⟨by decide, [0x0001, 0x8000], 0, { q := [0, 0, 0], x := [0, 0, 0, 0x8000], shiftY := [], shiftP := [] },
    { q := [0, 0xFFFF, 0], x := [0, 1, 0x7FFF, 0], shiftY := [], shiftP := [0, 0xFFFF, 0x8000, 0x7FFF] },
    by decide +kernel, by decide +kernel⟩

/-- Length 0, length NMAX + 1, unequal lengths, and a divisor longer than the dividend. -/
theorem witness_IllegalLengthsEndInLength :
    ∀ i ∈ [Instr.add (src 0 0) (src 0 0) 0, .mul (src 0 65) (src 0 1) 0, .modexp (src 0 2) (src 0 1) (src 0 3) 0,
      .div (src 0 2) (src 0 3) 0 0], i.lengthsLegal State.reset.cfg = false := by decide

/-- The first word past the end, for an input and for each result region. -/
theorem witness_RegionsOutsideEndInBounds :
    ∀ i ∈ [Instr.add (src 4095 2) (src 0 2) 0, .add (src 0 2) (src 0 2) 4095, .div (src 0 3) (src 0 2) 0 4095],
      i.lengthsLegal State.reset.cfg = true ∧ i.regionsInside State.reset.cfg = false := by decide

/-- Divisors for the error: one word at 0, a zero top word at 1 and 2, a zero word at 3. -/
def divisorState : State := stored [(0, 1, 3), (1, 2, 5), (3, 1, 0)]

theorem witness_InvalidDivisorsEndInDivisor :
    (∃ vx vy, (Instr.div (src 1 2) (src 0 1) 8 12).wellFormed divisorState.cfg = true ∧
      divisorState.holds (src 1 2) vx ∧ divisorState.holds (src 0 1) vy ∧ (src 0 1).len.toNat ≤ 1) ∧
    (∃ vx vy, (Instr.div (src 1 2) (src 1 2) 8 12).wellFormed divisorState.cfg = true ∧
      divisorState.holds (src 1 2) vx ∧ divisorState.holds (src 1 2) vy ∧
      wordAt vy ((src 1 2).len.toNat - 1) = 0) ∧
    (∃ vp, (Instr.modmul (src 0 1) (src 0 1) (src 0 1) 8).wellFormed divisorState.cfg = true ∧
      divisorState.holds (src 0 1) vp ∧ (src 0 1).len.toNat ≤ 1) ∧
    (∃ vp, (Instr.modexp (src 1 2) (src 0 1) (src 1 2) 8).wellFormed divisorState.cfg = true ∧
      divisorState.holds (src 1 2) vp ∧ divisorState.holds (src 0 1) [3] ∧ wordAt vp ((src 1 2).len.toNat - 1) = 0) ∧
    (∃ s t : State, exec (.mul (src 0 1) (src 0 1) 8) s = .next t) ∧
    ∃ vp, (Instr.addmod (src 0 1) (src 0 1) (src 3 1) 8).wellFormed divisorState.cfg = true ∧
      divisorState.holds (src 0 1) [3] ∧ divisorState.holds (src 3 1) vp ∧ wordAt vp ((src 3 1).len.toNat - 1) = 0 :=
  ⟨⟨[5, 0], [3], by decide, rfl, rfl, by decide⟩,
    ⟨[5, 0], [5, 0], by decide, rfl, rfl, by decide⟩,
    ⟨[3], by decide, rfl, by decide⟩,
    ⟨[5, 0], by decide, rfl, rfl, by decide⟩,
    ⟨divisorState, _, eq_nextOf _ (by decide +kernel)⟩, ⟨[0], by decide, rfl, rfl, by decide⟩⟩

/-- The boundary: an operand equal to the modulus. -/
theorem witness_UnreducedOperandsEndInRange :
    (∃ va vp, (Instr.modmul (src 4 2) (src 2 2) (src 4 2) 8).wellFormed expState.cfg = true ∧
      expState.holds (src 4 2) va ∧ expState.holds (src 2 2) [1, 1] ∧ expState.holds (src 4 2) vp ∧
      1 < (src 4 2).len.toNat ∧ wordAt vp ((src 4 2).len.toNat - 1) ≠ 0 ∧ val vp ≤ val va) ∧
    (∃ vb vp, (Instr.submod (src 1 1) (src 0 1) (src 0 1) 8).wellFormed modState.cfg = true ∧
      modState.holds (src 1 1) [3] ∧ modState.holds (src 0 1) vb ∧ modState.holds (src 0 1) vp ∧
      wordAt vp ((src 0 1).len.toNat - 1) ≠ 0 ∧ val vp ≤ val vb) ∧
    ∃ vg vp, (Instr.modexp (src 4 2) (src 6 1) (src 4 2) 8).wellFormed expState.cfg = true ∧
      expState.holds (src 4 2) vg ∧ expState.holds (src 6 1) [3] ∧ expState.holds (src 4 2) vp ∧
      1 < (src 4 2).len.toNat ∧ wordAt vp ((src 4 2).len.toNat - 1) ≠ 0 ∧ val vp ≤ val vg :=
  ⟨⟨[3, 1], [3, 1], by decide, rfl, rfl,
      rfl, by decide, by decide, by decide⟩,
    ⟨[0xFFF1], [0xFFF1], by decide, rfl, rfl,
      rfl, by decide, by decide⟩,
    ⟨[3, 1], [3, 1], by decide, rfl, rfl,
      rfl, by decide, by decide, by decide⟩⟩

/-- The last word of OPMEM after reset; an ADD whose second operand's last word is not written. -/
theorem witness_UnwrittenWordsFault :
    (4095 < State.reset.cfg.memWords ∧ State.reset.phase = .idle ∧ State.reset.mem.read 4095 = none) ∧
      ∃ (i : Instr) (s : State) (x : Src), i.wellFormed s.cfg = true ∧ x ∈ sources i ∧ s.unwrittenIn x :=
  ⟨by decide, .add (src 0 2) (src 2 2) 4, modState, src 2 2, by decide, by decide, 1, by decide⟩

theorem witness_ErrorEntrySetsStatusAlone : ∃ s t : State, complete s = .next t ∧ t.status.err = true :=
  ⟨_, _, badState_completes, by decide +kernel⟩

theorem witness_ErroringCommandsWriteNothing : ∃ s t : State, complete s = .next t ∧ t.status.err = true :=
  ⟨_, _, badState_completes, by decide +kernel⟩

theorem witness_CompletionStatusWord :
    (∃ s t : State, complete s = .next t ∧ t.statusWord = 0xA#32) ∧
      ∃ s t : State, complete s = .next t ∧ t.statusWord = 0x206#32 :=
  ⟨⟨_, _, addState_completes, by decide +kernel⟩, ⟨_, _, badState_completes, by decide +kernel⟩⟩

theorem witness_FlagIsSetByAddAndSubOnly : ∃ s t : State, complete s = .next t ∧ t.status.flag = true :=
  ⟨_, _, addState_completes, by decide +kernel⟩

theorem witness_DivisionErrorsAreUnreachable : ∃ s t : State, complete s = .next t := ⟨_, _, badState_completes⟩

theorem witness_CommandFrame :
    ∃ (i : Instr) (s t : State), exec i s = .next t ∧ ∀ r ∈ results i, r.has 6 = false :=
  ⟨.add (src 0 2) (src 2 2) 4, addState, _, eq_nextOf _ (by decide +kernel), by decide⟩

theorem witness_ResultRegionsAreWrittenWhole :
    ∃ (i : Instr) (s t : State), exec i s = .next t ∧ t.status.err = false ∧ ∃ r ∈ results i, r.has 5 = true :=
  ⟨.add (src 0 2) (src 2 2) 4, addState, _, eq_nextOf _ (by decide +kernel), by decide +kernel, by decide⟩

theorem witness_EveryStepKeepsTheInvariant : ∃ s t : State, s.Inv ∧ step s = .next t :=
  ⟨addState, _, by unfold State.Inv; decide +kernel, eq_nextOf _ (by decide +kernel)⟩

/-- The smallest and the largest legal parameters. -/
theorem witness_InvariantHoldsAfterReset :
    Config.legal { nmax := 2, memWords := 1 } = true ∧ Config.legal { nmax := 255, memWords := 65536 } = true ∧
      Config.legal { nmax := 1, memWords := 1 } = false ∧ Config.legal { nmax := 2, memWords := 65537 } = false := by
  decide

theorem witness_ConfigurationRegistersAreConstant :
    (∃ s t : State, step s = .next t) ∧ ∃ s : State, s.cfg.legal = true :=
  ⟨⟨addState, _, eq_nextOf _ (by decide +kernel)⟩, ⟨State.reset, by decide⟩⟩

/-- A state whose next step is the host action. -/
def withHost (acts : List HostAction) : State := { addState with phase := .idle, host := acts }

theorem witness_OnlyHostAndEngineChangeOpmem :
    (∃ s t : State, step s = .next t ∧ t.mem.read 9 ≠ s.mem.read 9) ∧
      (∃ s t : State, step s = .next t ∧ t.mem.read 4 ≠ s.mem.read 4) ∧
      ∃ s t : State, step s = .next t ∧ t.mem.read 0 ≠ s.mem.read 0 :=
  ⟨⟨withHost [.memWrite 9 7], _, eq_nextOf _ (by decide +kernel), by decide +kernel⟩,
    ⟨addState, _, eq_nextOf _ (by decide +kernel), by decide +kernel⟩,
    ⟨withHost [.reset], _, eq_nextOf _ (by decide +kernel), by decide +kernel⟩⟩

theorem witness_RunningCommandIsUndisturbed :
    ∃ s t : State, s.phase = .busy ∧ s.host ≠ [] ∧ s.delay ≠ 0 ∧ (∀ rest, s.host ≠ .reset :: rest) ∧ step s = .next t :=
  ⟨{ addState with delay := 1, host := [.memWrite 0 7] }, _, by decide, by decide, by decide,
    fun rest h => by simp at h, eq_nextOf _ (by decide +kernel)⟩

theorem witness_StepsNeverRefuse : ∃ (s : State) (f : Fault), complete s = .fault f :=
  ⟨running (.add (src 0 2) (src 2 2) 4) [(0, 2, 7), (2, 1, 7)], .unwrittenWord 3, rfl⟩

theorem witness_StartCapturesTheCommand :
    ∃ (s : State) (v : Word32), s.phase = .idle ∧ v.getLsbD 0 = true := ⟨State.reset, 0x3, by decide⟩

theorem witness_CtrlWritesWhileBusyAreIgnored : ∃ s : State, s.phase = .busy := ⟨addState, by decide⟩

theorem witness_ClearZeroesStatus :
    (∃ (s : State) (v : Word32), v.getLsbD 0 = false ∧ s.phase = .idle ∧ v.getLsbD 1 = true) ∧
      (∃ (s : State) (v : Word32), v.getLsbD 0 = false ∧ s.phase = .busy) ∧
      ∃ v : Word32, v.getLsbD 0 = false ∧ v.getLsbD 1 = false :=
  ⟨⟨State.reset.fail .length, 0x2, by decide⟩, ⟨addState, 0x2, by decide⟩, ⟨0xFFFFFFFC, by decide⟩⟩

theorem witness_ClearAndStartEqualsStart : (∃ s : State, s.phase = .idle) ∧ ∃ s : State, s.phase = .busy :=
  ⟨⟨State.reset, by decide⟩, ⟨addState, by decide⟩⟩

theorem witness_CommandRegistersKeepTheirField :
    ((0x14, 0xF#32) : Nat × Word32) ∈ [(0x14, 0xF#32), (0x18, 0xFFFF#32), (0x1C, 0xFFFF#32), (0x20, 0xFFFF#32),
        (0x24, 0xFFFF#32), (0x28, 0xFFFF#32), (0x2C, 0xFFFF#32), (0x30, 0xFFFF#32), (0x34, 0xFFFF#32)] ∧
      ((0x34, 0xFFFF#32) : Nat × Word32) ∈ [(0x14, 0xF#32), (0x18, 0xFFFF#32), (0x1C, 0xFFFF#32), (0x20, 0xFFFF#32),
        (0x24, 0xFFFF#32), (0x28, 0xFFFF#32), (0x2C, 0xFFFF#32), (0x30, 0xFFFF#32), (0x34, 0xFFFF#32)] ∧
      ∃ r r' : Reg, r' ≠ r := by
  exact ⟨by decide, by decide, .ctrl, .status, by decide⟩

/-- The last decoded offset, the first past it, and one that is no multiple of 4. -/
theorem witness_UndecodedAccessesFault :
    (0x3C % 4 = 0 ∧ (0x3C : Nat) ≤ 0x3C) ∧ ¬ (0x40 % 4 = 0 ∧ (0x40 : Nat) ≤ 0x3C) ∧
      ¬ (0x3D % 4 = 0 ∧ (0x3D : Nat) ≤ 0x3C) ∧ State.reset.cfg.memWords ≤ 4096 := by decide

theorem witness_ReadOnlyAndReservedRegisters :
    (0x3C : Nat) ∈ [0x08, 0x38, 0x3C] ∧ (0x00 : Nat) ∈ [0x00, 0x04, 0x0C, 0x38, 0x3C] := by decide

theorem witness_ReadsHaveNoSideEffect :
    (∃ s t : State, hostRegRead 0x3C s = .next t) ∧ (∃ s t : State, hostMemRead 3 s = .next t ∧ s.phase = .idle) ∧
      ∃ s t : State, hostMemRead 4095 s = .next t ∧ s.phase = .busy :=
  ⟨⟨State.reset, _, eq_nextOf _ (by decide +kernel)⟩, ⟨withHost [], _, eq_nextOf _ (by decide +kernel), by decide⟩,
    ⟨addState, _, eq_nextOf _ (by decide +kernel), by decide⟩⟩

theorem witness_HostWriteThenRead : ∃ (s : State) (a : Nat), s.phase = .idle ∧ a < s.cfg.memWords :=
  ⟨State.reset, 4095, by decide⟩

theorem witness_OpmemIsFrozenWhileBusy : ∃ (s : State) (a : Nat), s.phase = .busy ∧ a < s.cfg.memWords :=
  ⟨addState, 4095, by decide⟩

theorem witness_ResultsAreReadableAfterCompletion :
    ∃ (s t : State) (i : Instr), complete s = .next t ∧ decode s.snap = .command i ∧ t.status.err = false ∧
      ∃ r ∈ results i, r.has 5 = true :=
  ⟨_, _, .add (src 0 2) (src 2 2) 4, addState_completes, by decide, by decide +kernel, by decide⟩

theorem witness_ResetAbandonsEverything : ∃ r : Reg, r ≠ .cfg0 ∧ r ≠ .cfg1 := ⟨.status, by decide⟩

theorem witness_RegistersAfterReset :
    Config.legal { nmax := 255, memWords := 65536 } = true ∧ (0x08 : Nat) ∈ [0x08, 0x0C, 0x10, 0x14, 0x18, 0x1C, 0x20, 0x24, 0x28, 0x2C, 0x30, 0x34, 0x38, 0x3C] := by decide

theorem witness_WaitingReachesCompletion :
    (∃ s : State, s.phase = .busy ∧ s.host = [.wait] ∧ s.delay = 0) ∧
      ∃ s : State, s.phase = .busy ∧ s.host = [.wait] ∧ s.delay ≠ 0 :=
  ⟨⟨{ addState with host := [.wait] }, by decide⟩, ⟨{ addState with host := [.wait], delay := 2 }, by decide⟩⟩

theorem witness_MwvStoresTheValue :
    ∃ (s : State) (a n v : Nat) (rest : List HostAction), s.phase = .idle ∧ a + n ≤ s.cfg.memWords ∧
      s.host = mwv a n v ++ rest :=
  ⟨withHost (mwv 4094 2 0x1234FFFF ++ [.wait]), 4094, 2, 0x1234FFFF, [.wait], by decide, by decide, rfl⟩

theorem witness_ExpansionRunsItsCommand :
    ∃ (s : State) (i : Instr) (rest : List HostAction), s.phase = .idle ∧ s.host = expand i ++ rest :=
  ⟨withHost (expand (.add (src 0 2) (src 2 2) 4) ++ [.memRead 4]), .add (src 0 2) (src 2 2) 4, [.memRead 4],
    by decide, rfl⟩

end Sys2Proof.Tests
end

section
/-! Shared rules of the proofs: what a completion step that succeeded has computed, and what a step of the whole machine
can do (40_control.md rules R103 to R109). -/

namespace Sys2Proof.Machine

/-! ### What a successful completion step has computed -/

/-- The operands' values and the checks they passed when a command answers the result `r` (40_control.md rules R105 to
R107): one constructor per command. -/
inductive Computed (s : State) : Instr → Result → Prop where
  | add {a b : Src} {c : BitVec 16} {va vb : BigNat} {r : Result} (ha : s.holds a va) (hb : s.holds b vb)
      (hr : computeAdd s.work va vb = .ok r) : Computed s (.add a b c) r
  | sub {a b : Src} {c : BitVec 16} {va vb : BigNat} {r : Result} (ha : s.holds a va) (hb : s.holds b vb)
      (hr : computeSub s.work va vb = .ok r) : Computed s (.sub a b c) r
  | mul {a b : Src} {c : BitVec 16} {va vb : BigNat} {r : Result} (ha : s.holds a va) (hb : s.holds b vb)
      (hr : computeMul s.work va vb = .ok r) : Computed s (.mul a b c) r
  | div {x y : Src} {q d : BitVec 16} {vx vy : BigNat} {r : Result} (hx : s.holds x vx) (hy : s.holds y vy)
      (hd : divisorOk vy = true) (hr : computeDiv s.work vx vy = .ok r) : Computed s (.div x y q d) r
  | modmul {a b p : Src} {c : BitVec 16} {va vb vp : BigNat} {r : Result} (ha : s.holds a va) (hb : s.holds b vb)
      (hp : s.holds p vp) (hd : divisorOk vp = true) (hg : (reduced va vp && reduced vb vp) = true)
      (hr : computeModmul s.work va vb vp = .ok r) : Computed s (.modmul a b p c) r
  | modexp {g e p : Src} {c : BitVec 16} {vg ve vp : BigNat} {r : Result} (hg : s.holds g vg) (he : s.holds e ve)
      (hp : s.holds p vp) (hd : divisorOk vp = true) (hlt : reduced vg vp = true)
      (hr : computeModexp s.work vg ve vp = .ok r) : Computed s (.modexp g e p c) r
  | addmod {a b p : Src} {c : BitVec 16} {va vb vp : BigNat} {r : Result} (ha : s.holds a va) (hb : s.holds b vb)
      (hp : s.holds p vp) (hd : modulusOk vp = true) (hg : (reduced va vp && reduced vb vp) = true)
      (hr : computeAddmod s.work va vb vp = .ok r) : Computed s (.addmod a b p c) r
  | submod {a b p : Src} {c : BitVec 16} {va vb vp : BigNat} {r : Result} (ha : s.holds a va) (hb : s.holds b vb)
      (hp : s.holds p vp) (hd : modulusOk vp = true) (hg : (reduced va vp && reduced vb vp) = true)
      (hr : computeSubmod s.work va vb vp = .ok r) : Computed s (.submod a b p c) r

/-- A command of two operands that succeeds passed its first checks and read both. -/
theorem two_sources_next {i : Instr} {a b : Src} {s t : State} {k : BigNat → BigNat → Outcome}
    (h : checked i s (withSrc a s fun va => withSrc b s fun vb => k va vb) = .next t) (ht : t.status.err = false) :
    ∃ va vb, s.holds a va ∧ s.holds b vb ∧ k va vb = .next t := by
  obtain ⟨-, -, h⟩ := checked_next h ht
  obtain ⟨va, ha, h⟩ := withSrc_next h
  obtain ⟨vb, hb, h⟩ := withSrc_next h
  exact ⟨va, vb, ha, hb, h⟩

/-- A command of three operands, two guards and a computation that succeeds read all three, passed both guards and
computed its result. -/
theorem three_sources_next {i : Instr} {a b p : Src} {s t : State} {e e' : ErrCode} {d : BigNat → Bool}
    {g : BigNat → BigNat → BigNat → Bool} {m : BigNat → BigNat → BigNat → Except ErrCode Result}
    (h : checked i s (withSrc a s fun va => withSrc b s fun vb => withSrc p s fun vp =>
      require e (d vp) s (require e' (g va vb vp) s (finish i s (m va vb vp)))) = .next t)
    (ht : t.status.err = false) :
    ∃ va vb vp r, s.holds a va ∧ s.holds b vb ∧ s.holds p vp ∧ d vp = true ∧ g va vb vp = true ∧
      m va vb vp = .ok r ∧ t = s.succeed (results i) r := by
  obtain ⟨va, vb, ha, hb, h⟩ := two_sources_next h ht
  obtain ⟨vp, hp, h⟩ := withSrc_next h
  obtain ⟨hd, h⟩ := require_next h ht
  obtain ⟨hg, h⟩ := require_next h ht
  obtain ⟨r, hr, h⟩ := finish_next h ht
  exact ⟨va, vb, vp, r, ha, hb, hp, hd, hg, hr, h⟩

/-- A completion step without an error stored what its command computed on the operands' values. -/
theorem exec_computed {i : Instr} {s t : State} (h : exec i s = .next t) (ht : t.status.err = false) :
    ∃ r, Computed s i r ∧ t = s.succeed (results i) r := by
  cases i with
  | add a b c =>
    obtain ⟨va, vb, ha, hb, hk⟩ := two_sources_next h ht
    obtain ⟨r, hr, heq⟩ := finish_next hk ht
    exact ⟨r, .add ha hb hr, heq⟩
  | sub a b c =>
    obtain ⟨va, vb, ha, hb, hk⟩ := two_sources_next h ht
    obtain ⟨r, hr, heq⟩ := finish_next hk ht
    exact ⟨r, .sub ha hb hr, heq⟩
  | mul a b c =>
    obtain ⟨va, vb, ha, hb, hk⟩ := two_sources_next h ht
    obtain ⟨r, hr, heq⟩ := finish_next hk ht
    exact ⟨r, .mul ha hb hr, heq⟩
  | div x y q d =>
    obtain ⟨vx, vy, hx, hy, hk⟩ := two_sources_next h ht
    obtain ⟨hd, hk⟩ := require_next hk ht
    obtain ⟨r, hr, heq⟩ := finish_next hk ht
    exact ⟨r, .div hx hy hd hr, heq⟩
  | modmul a b p c =>
    obtain ⟨va, vb, vp, r, ha, hb, hp, hd, hg, hr, heq⟩ := three_sources_next h ht
    exact ⟨r, .modmul ha hb hp hd hg hr, heq⟩
  | modexp g e p c =>
    obtain ⟨vg, ve, vp, r, hg, he, hp, hd, hlt, hr, heq⟩ :=
      three_sources_next (g := fun vg _ vp => reduced vg vp) h ht
    exact ⟨r, .modexp hg he hp hd hlt hr, heq⟩
  | addmod a b p c =>
    obtain ⟨va, vb, vp, r, ha, hb, hp, hd, hg, hr, heq⟩ := three_sources_next h ht
    exact ⟨r, .addmod ha hb hp hd hg hr, heq⟩
  | submod a b p c =>
    obtain ⟨va, vb, vp, r, ha, hb, hp, hd, hg, hr, heq⟩ := three_sources_next h ht
    exact ⟨r, .submod ha hb hp hd hg hr, heq⟩

/-! ### What a step of the whole machine can do -/

/-- What a register write does: the live registers and INTEN alone, or a CLEAR or an accepted START while IDLE
(20_memory.md rule R62; 40_control.md rules R100, R110). -/
theorem writeReg_cases (s : State) (v : Word32) (r : Reg) :
    (∃ ie k, s.writeReg v r = { s with doneIe := ie, regs := k }) ∨
      (s.busy = false ∧ (s.writeReg v r = s.clear ∨ s.writeReg v r = s.accept s.regs)) := by
  cases r with
  | ctrl =>
    rcases writeCtrl_cases s v with hs | hs
    · exact .inl ⟨_, _, hs⟩
    · exact .inr hs
  | _ => exact .inl ⟨_, _, rfl⟩

@[simp] theorem State.writeReg_cfg (s : State) (v : Word32) (r : Reg) : (s.writeReg v r).cfg = s.cfg := by
  rcases writeReg_cases s v r with ⟨_, _, h⟩ | ⟨-, h | h⟩ <;> rw [h] <;> rfl

@[simp] theorem State.writeReg_mem (s : State) (v : Word32) (r : Reg) : (s.writeReg v r).mem = s.mem := by
  rcases writeReg_cases s v r with ⟨_, _, h⟩ | ⟨-, h | h⟩ <;> rw [h] <;> rfl

/-- The moves of the host's side (20_memory.md rules R61 to R63, 70_reset_and_hazards.md rule R340): one that changes the
model's own fields alone (a read, a poll, a write that is ignored, an idle block), a register write, an OPMEM write while
IDLE, or the reset. -/
inductive HostMove (s : State) : State → Prop where
  | ownFields (delay draws : Nat) (reply : Reply) (host : List HostAction) :
      HostMove s { s with delay := delay, draws := draws, reply := reply, host := host }
  | writesReg (rest : List HostAction) (v : Word32) (r : Reg) : HostMove s ((s.advance rest).writeReg v r)
  | writesWord (a : Nat) (v : Word) (rest : List HostAction) (hh : s.host = .memWrite a v :: rest)
      (ha : a < s.cfg.memWords) (hb : s.busy = false) :
      HostMove s { s.advance rest with mem := s.mem.write a v }
  | resets (rest : List HostAction) (hh : s.host = .reset :: rest) : HostMove s (s.advance rest).hardReset

theorem HostMove.of_regRead {off : Nat} {s t : State} {host : List HostAction}
    (h : hostRegRead off (s.advance host) = .next t) : HostMove s t := by
  obtain ⟨r, -, rfl⟩ := hostRegRead_next h
  exact .ownFields _ _ _ _

/-- What the host's side does when the step is its own. -/
theorem hostTurn_next {s t : State} (h : hostTurn s = .next t) : HostMove s t := by
  rw [hostTurn] at h
  split at h
  next =>
    cases h
    exact .ownFields s.delay s.draws s.reply s.host
  next act rest hh =>
    cases act with
    | regRead off => exact .of_regRead h
    | regWrite off v =>
      obtain ⟨r, -, rfl⟩ := hostRegWrite_next h
      exact .writesReg rest v r
    | regNarrow off bits => cases h
    | memRead a =>
      obtain ⟨-, ⟨-, rfl⟩ | ⟨-, w, -, rfl⟩⟩ := hostMemRead_next h
      · exact .ownFields _ _ _ _
      · exact .ownFields _ _ _ _
    | memWrite a v =>
      obtain ⟨ha, ⟨-, rfl⟩ | ⟨hb, rfl⟩⟩ := hostMemWrite_next h
      · exact .ownFields _ _ _ _
      · exact .writesWord a v rest hh ha hb
    | wait => exact .of_regRead (off := Reg.offset .status) h
    | reset =>
      cases h
      exact .resets rest hh

/-- A step that goes on is the engine's completion step or a move of the host's side (40_control.md rule R109). -/
theorem step_next {s t : State} (h : step s = .next t) : (s.phase = .busy ∧ complete s = .next t) ∨ HostMove s t := by
  cases hd : s.engineDue with
  | true => exact .inl ⟨((engineDue_eq_true_iff s).mp hd).1, step_of_due hd ▸ h⟩
  | false => exact .inr (hostTurn_next (step_of_not_due hd ▸ h))

end Sys2Proof.Machine
end

section
/-! The invariant of Safety.lean (10_state.md rules R26, R30, R40; 60_exceptions.md rule R301): after reset and over every
step. -/

namespace Sys2Proof.Machine

/-! ### STATUS -/

/-- A STATUS of zeros is consistent with either phase. -/
theorem statusOk_of_zero {s : State} (h : s.status = Status.zero) : s.statusOk = true := by
  simp [State.statusOk, h, Status.zero]

/-- The STATUS of an error entry is consistent: its code is one of 1 to 7. -/
theorem statusOk_fail (s : State) (e : ErrCode) : (s.fail e).statusOk = true := by
  have hcode : e.bits.toNat ≤ 7 := by cases e <;> decide
  have hne : e.bits ≠ 0#4 := e.bits_ne_zero
  simp [State.statusOk, State.busy, hne, hcode]

theorem statusOk_succeed (s : State) (rs : List Region) (r : Result) : (s.succeed rs r).statusOk = true := by
  simp [State.statusOk, State.busy]

/-! ### The working buffers -/

theorem holds_length {s : State} {x : Src} {ws : BigNat} (h : s.holds x ws) : ws.length = x.len.toNat :=
  (Mem.readWords_ok h).1

theorem length_le_of_lenOk {cfg : Config} {n : BitVec 16} (h : cfg.lenOk n = true) : n.toNat ≤ cfg.nmax := by
  rw [Config.lenOk, Bool.and_eq_true, decide_eq_true_iff, decide_eq_true_iff] at h
  exact h.2

/-- The buffers a successful command leaves are as large as rule R40 allows, if they were before it. -/
theorem computed_work_bounded {s : State} {i : Instr} {r : Result} (h : Computed s i r)
    (hl : lengthsOk s.cfg i = true) (hw : s.work.bounded s.cfg.nmax = true) : r.work.bounded s.cfg.nmax = true := by
  rw [lengthsOk_eq] at hl
  cases h with
  | add _ _ hr | sub _ _ hr | mul _ _ hr => cases hr; exact hw
  | addmod _ _ _ _ _ hr | submod _ _ _ _ _ hr => cases hr; exact hw
  | div hx hy hd hr =>
    simp only [Instr.lengthsLegal, Bool.and_eq_true, decide_eq_true_iff] at hl
    obtain ⟨⟨hlx, -⟩, hyx⟩ := hl
    have hlx := length_le_of_lenOk hlx
    obtain ⟨st, hst, hr⟩ := andThen_eq_ok hr
    cases hr
    exact afterDivide_bounded hst (by rw [holds_length hx, holds_length hy]; exact hyx) hd
      (by rw [holds_length hx]; omega) hw
  | modmul ha hb hp hd _ hr =>
    simp only [Instr.lengthsLegal, Bool.and_eq_true, decide_eq_true_iff] at hl
    obtain ⟨⟨⟨_, hlp⟩, hab⟩, hbp⟩ := hl
    obtain ⟨q, hq, hr⟩ := andThen_eq_ok hr
    cases hr
    exact (modmul_bounded hq (by rw [holds_length ha, holds_length hp, hab, hbp])
      (by rw [holds_length hb, holds_length hp, hbp])
      (by rw [holds_length hp]; exact length_le_of_lenOk hlp) hd hw).1
  | modexp hg _ hp hd _ hr =>
    simp only [Instr.lengthsLegal, Bool.and_eq_true, decide_eq_true_iff] at hl
    obtain ⟨⟨_, hlp⟩, hgp⟩ := hl
    exact computeModexp_bounded hr (by rw [holds_length hg, holds_length hp, hgp])
      (by rw [holds_length hp]; exact length_le_of_lenOk hlp) hd hw

/-! ### The ends of a command, reset, the host's moves -/

theorem inv_fail {s : State} (e : ErrCode) (h : s.Inv) : (s.fail e).Inv := by
  obtain ⟨hc, hm, hi, -, hw⟩ := h
  exact ⟨hc, hm, hi, statusOk_fail s e, hw⟩

theorem inv_succeed {s : State} {i : Instr} {r : Result} (h : s.Inv) (hl : lengthsOk s.cfg i = true)
    (hb : boundsOk s.cfg i = true) (hr : Computed s i r) : (s.succeed (results i) r).Inv := by
  obtain ⟨hc, hm, hi, -, hw⟩ := h
  have hregions : ∀ q ∈ results i, q.inside s.cfg.memWords = true := fun q hq =>
    List.all_eq_true.mp hb q (List.mem_append_right _ hq)
  have hwork : r.work.bounded s.cfg.nmax = true := computed_work_bounded hr hl hw
  exact ⟨hc, Mem.wf_storeResults _ _ _ hm, Mem.inside_storeResults _ _ _ _ hregions hi, statusOk_succeed s _ r, hwork⟩

/-- The completion step keeps the invariant. -/
theorem complete_inv {s t : State} (hs : s.Inv) (h : complete s = .next t) : t.Inv := by
  rcases complete_next h with ⟨e, rfl⟩ | ⟨i, r, -, hex, hl, hb, rfl⟩
  · exact inv_fail e hs
  · obtain ⟨r', hr', heq⟩ := exec_computed hex rfl
    rw [heq]
    exact inv_succeed hs hl hb hr'

/-- After reset the invariant holds, whatever the counter of free values, the last reply and the host's list. -/
theorem inv_resetWith {cfg : Config} (h : cfg.legal = true) (draws : Nat) (reply : Reply) (host : List HostAction) :
    { State.resetWith cfg with draws := draws, reply := reply, host := host : State }.Inv :=
  ⟨h, rfl, rfl, statusOk_of_zero rfl, (Work.bounded_iff _ _).mpr (by simp [State.resetWith, Work.empty])⟩

theorem inv_writeReg {s : State} (v : Word32) (r : Reg) (h : s.Inv) : (s.writeReg v r).Inv := by
  rcases writeReg_cases s v r with ⟨_, _, heq⟩ | ⟨-, heq | heq⟩ <;> rw [heq]
  · exact h
  all_goals
    obtain ⟨hc, hm, hi, -, hw⟩ := h
    exact ⟨hc, hm, hi, statusOk_of_zero rfl, hw⟩

/-- No move of the host's side leaves the invariant. -/
theorem HostMove.inv {s t : State} (hs : s.Inv) (h : HostMove s t) : t.Inv := by
  cases h with
  | ownFields delay draws reply host => exact hs
  | writesReg rest v r => exact inv_writeReg v r hs
  | writesWord a v rest _ ha _ =>
    obtain ⟨hc, hm, hi, hst, hw⟩ := hs
    exact ⟨hc, Mem.wf_write _ a v hm, Mem.inside_write _ _ a v ha hi, hst, hw⟩
  | resets rest _ => exact inv_resetWith hs.1 s.draws s.reply rest

/-- Settles O32: the completion step and every move of the host's side keep the invariant. -/
theorem everyStepKeepsTheInvariant : Obligations.EveryStepKeepsTheInvariant := by
  intro s t hs h
  rcases step_next h with ⟨-, hc⟩ | hm
  · exact complete_inv hs hc
  · exact hm.inv hs

/-- Settles O33: the reset state has no OPMEM words, a STATUS of zeros and empty buffers. -/
theorem invariantHoldsAfterReset : Obligations.InvariantHoldsAfterReset := by
  have hreset : ∀ cfg : Config, cfg.legal = true → (State.resetWith cfg).Inv := fun _ hc => inv_resetWith hc 0 .none []
  exact ⟨hreset, hreset Config.default rfl⟩

end Sys2Proof.Machine
end

section
/-! Nothing a command does depends on what an earlier command left in the working buffers (10_state.md rule R40). -/

namespace Sys2Proof.Machine

/-! ### The computations -/

/-- What an answer shows outside the working buffers: the result values and the FLAG bit. -/
def Result.output (r : Result) : List Nat × Bool := (r.values, r.flag)

/-- Two computations that agree up to the buffers they leave still do when they go on alike. -/
theorem map_andThen_congr {α β γ : Type} {m m' : Except ErrCode (α × Work)} {f f' : α × Work → Except ErrCode β}
    {g : β → γ} (hm : m.map Prod.fst = m'.map Prod.fst)
    (hf : ∀ x w w', (f (x, w)).map g = (f' (x, w')).map g) : (andThen m f).map g = (andThen m' f').map g := by
  cases m with
  | error e => cases m' with
    | error e' => cases hm; rfl
    | ok y => cases hm
  | ok x => cases m' with
    | error e' => cases hm
    | ok y =>
      obtain ⟨x, w⟩ := x
      obtain ⟨y, w'⟩ := y
      cases hm
      exact hf x w w'

/-- Two computations that begin alike and go on alike agree. -/
theorem map_andThen_congr_right {α β γ : Type} (m : Except ErrCode α) {f f' : α → Except ErrCode β} {g : β → γ}
    (hf : ∀ a, (f a).map g = (f' a).map g) : (andThen m f).map g = (andThen m f').map g := by
  cases m with
  | error e => rfl
  | ok a => exact hf a

theorem computeDiv_output (w w' : Work) (x y : BigNat) :
    (computeDiv w x y).map Result.output = (computeDiv w' x y).map Result.output :=
  map_andThen_congr_right _ fun _ => rfl

theorem modmul_fst (w w' : Work) (a b p : BigNat) :
    (modmul w a b p).map Prod.fst = (modmul w' a b p).map Prod.fst :=
  map_andThen_congr_right _ fun _ => rfl

theorem computeModmul_output (w w' : Work) (a b p : BigNat) :
    (computeModmul w a b p).map Result.output = (computeModmul w' a b p).map Result.output :=
  map_andThen_congr (modmul_fst w w' a b p) fun _ _ _ => rfl

theorem expBit_fst (g e p a : BigNat) (i : Nat) (w w' : Work) :
    (expBit g e p i (a, w)).map Prod.fst = (expBit g e p i (a, w')).map Prod.fst := by
  refine map_andThen_congr (modmul_fst w w' a a p) fun sq v v' => ?_
  cases bitAt e i with
  | true => exact modmul_fst v v' sq g p
  | false => rfl

theorem expLoop_fst (g e p a : BigNat) (i : Nat) (w w' : Work) :
    (expLoop g e p i (a, w)).map Prod.fst = (expLoop g e p i (a, w')).map Prod.fst := by
  induction i generalizing a w w' with
  | zero => rfl
  | succ i ih => exact map_andThen_congr (expBit_fst g e p a i w w') ih

theorem modexp_fst (w w' : Work) (g e p : BigNat) :
    (modexp w g e p).map Prod.fst = (modexp w' g e p).map Prod.fst := by
  rw [modexp, modexp]
  cases bitLength e with
  | none => rfl
  | some t => exact expLoop_fst g e p _ (t + 1) w w'

theorem computeModexp_output (w w' : Work) (g e p : BigNat) :
    (computeModexp w g e p).map Result.output = (computeModexp w' g e p).map Result.output :=
  map_andThen_congr (modexp_fst w w' g e p) fun _ _ _ => rfl

/-! ### The completion step -/

/-- Two ends of a completion step are the same up to the working buffers. -/
inductive AgreeUpToWork : Outcome → Outcome → Prop where
  | next (t : State) (w : Work) : AgreeUpToWork (.next t) (.next { t with work := w })
  | fault (f : Fault) : AgreeUpToWork (.fault f) (.fault f)

theorem AgreeUpToWork.of_next {t : State} {o : Outcome} (h : AgreeUpToWork (.next t) o) :
    ∃ w, o = .next { t with work := w } := by
  cases h with
  | next _ w => exact ⟨w, rfl⟩

section
variable {i : Instr} {s : State} {w : Work}

theorem AgreeUpToWork.fail (e : ErrCode) :
    AgreeUpToWork (.next (s.fail e)) (.next ({ s with work := w }.fail e)) :=
  .next (s.fail e) w

theorem AgreeUpToWork.checked {k k' : Outcome} (h : AgreeUpToWork k k') :
    AgreeUpToWork (checked i s k) (checked i { s with work := w } k') := by
  rw [Machine.checked, Machine.checked]
  cases lengthsOk s.cfg i with
  | false => exact .fail _
  | true => cases boundsOk s.cfg i with
    | false => exact .fail _
    | true => exact h

theorem AgreeUpToWork.withSrc {x : Src} {k k' : BigNat → Outcome} (h : ∀ ws, AgreeUpToWork (k ws) (k' ws)) :
    AgreeUpToWork (withSrc x s k) (withSrc x { s with work := w } k') := by
  rw [Machine.withSrc, Machine.withSrc]
  cases s.mem.readWords x.addr.toNat x.len.toNat with
  | error a => exact .fault _
  | ok ws => exact h ws

theorem AgreeUpToWork.require {e : ErrCode} {ok : Bool} {k k' : Outcome} (h : AgreeUpToWork k k') :
    AgreeUpToWork (require e ok s k) (require e ok { s with work := w } k') := by
  cases ok with
  | false => exact .fail e
  | true => exact h

theorem AgreeUpToWork.finish {m m' : Except ErrCode Result} (h : m.map Result.output = m'.map Result.output) :
    AgreeUpToWork (finish i s m) (finish i { s with work := w } m') := by
  cases m with
  | error e => cases m' with
    | error e' => cases h; exact .fail e
    | ok r' => cases h
  | ok r => cases m' with
    | error e' => cases h
    | ok r' =>
      obtain ⟨values, flag, v⟩ := r
      obtain ⟨values', flag', v'⟩ := r'
      cases h
      exact .next (s.succeed (results i) ⟨values, flag, v⟩) v'

end

/-- Every command ends alike, up to the working buffers, whatever they held. -/
theorem exec_agree (i : Instr) (s : State) (w : Work) : AgreeUpToWork (exec i s) (exec i { s with work := w }) := by
  cases i with
  | add a b c => exact .checked (.withSrc fun _ => .withSrc fun _ => .finish rfl)
  | sub a b c => exact .checked (.withSrc fun _ => .withSrc fun _ => .finish rfl)
  | mul a b c => exact .checked (.withSrc fun _ => .withSrc fun _ => .finish rfl)
  | div x y q r => exact .checked (.withSrc fun _ => .withSrc fun _ => .require (.finish (computeDiv_output ..)))
  | modmul a b p c =>
    exact .checked (.withSrc fun _ => .withSrc fun _ => .withSrc fun _ => .require (.require
      (.finish (computeModmul_output ..))))
  | modexp g e p c =>
    exact .checked (.withSrc fun _ => .withSrc fun _ => .withSrc fun _ => .require (.require
      (.finish (computeModexp_output ..))))
  | addmod a b p c =>
    exact .checked (.withSrc fun _ => .withSrc fun _ => .withSrc fun _ => .require (.require (.finish rfl)))
  | submod a b p c =>
    exact .checked (.withSrc fun _ => .withSrc fun _ => .withSrc fun _ => .require (.require (.finish rfl)))

theorem complete_agree (s : State) (w : Work) : AgreeUpToWork (complete s) (complete { s with work := w }) := by
  rw [complete, complete]
  cases decode s.snap with
  | reservedOp op => exact .fail _
  | command i => exact exec_agree i s w

/-- Settles O7: the two completion steps agree up to the working buffers. -/
theorem workingBuffersDoNotCarryOver : Obligations.WorkingBuffersDoNotCarryOver := by
  intro s t w h
  have hag := complete_agree s w
  rw [h] at hag
  exact hag.of_next

end Sys2Proof.Machine
end

section
/-! What the completion step and the step of the whole machine leave: faults at unwritten words, FLAG, the configuration
registers and OPMEM (10_state.md rules R23, R24, R27, R31, R32). -/

namespace Sys2Proof.Machine

/-! ### Words that hold no value -/

/-- The outcome is the fault of a word that holds no value (10_state.md rule R31). -/
def FaultsUnwritten (s : State) (o : Outcome) : Prop := ∃ a, o = .fault (.unwrittenWord a) ∧ s.mem.read a = none

section
variable {s : State} {x : Src}

theorem FaultsUnwritten.checked {i : Instr} {k : Outcome} (hi : i.wellFormed s.cfg = true) (h : FaultsUnwritten s k) :
    FaultsUnwritten s (checked i s k) := by
  obtain ⟨hl, hb⟩ := checks_of_wellFormed hi
  rwa [checked_ok hl hb]

/-- Reading the operands faults where this operand has an unwritten word, or where reading the later ones does. -/
theorem FaultsUnwritten.withSrc {y : Src} {k : BigNat → Outcome} (hu : s.unwrittenIn x)
    (h : x = y ∨ ∀ ws, FaultsUnwritten s (k ws)) : FaultsUnwritten s (withSrc y s k) := by
  cases hr : s.mem.readWords y.addr.toNat y.len.toNat with
  | error a => exact ⟨a, by rw [Machine.withSrc, hr], (Mem.readWords_error hr).2.2⟩
  | ok ws =>
    rw [withSrc_ok hr]
    refine h.elim (fun hxy => ?_) fun hk => hk ws
    subst hxy
    obtain ⟨j, hj, hnone⟩ := hu
    rw [(Mem.readWords_ok hr).2 j hj] at hnone
    cases hnone

theorem FaultsUnwritten.two_sources {a b : Src} {k : BigNat → BigNat → Outcome} (hu : s.unwrittenIn x)
    (hx : x ∈ [a, b]) : FaultsUnwritten s (Machine.withSrc a s fun va => Machine.withSrc b s fun vb => k va vb) := by
  rw [List.mem_pair] at hx
  exact .withSrc hu (hx.imp id fun hb _ => .withSrc hu (.inl hb))

theorem FaultsUnwritten.three_sources {a b p : Src} {k : BigNat → BigNat → BigNat → Outcome} (hu : s.unwrittenIn x)
    (hx : x ∈ [a, b, p]) : FaultsUnwritten s
      (Machine.withSrc a s fun va => Machine.withSrc b s fun vb => Machine.withSrc p s fun vp => k va vb vp) := by
  rw [List.mem_cons] at hx
  exact .withSrc hu (hx.imp id fun hbp _ => .two_sources hu hbp)

/-- A well-formed command faults where an input region has a word that holds no value. -/
theorem exec_faultsUnwritten {i : Instr} (hi : i.wellFormed s.cfg = true) (hx : x ∈ sources i)
    (hu : s.unwrittenIn x) : FaultsUnwritten s (exec i s) := by
  cases i with
  | add a b c => exact .checked hi (.two_sources hu hx)
  | sub a b c => exact .checked hi (.two_sources hu hx)
  | mul a b c => exact .checked hi (.two_sources hu hx)
  | div x y q r => exact .checked hi (.two_sources hu hx)
  | modmul a b p c => exact .checked hi (.three_sources hu hx)
  | modexp g e p c => exact .checked hi (.three_sources hu hx)
  | addmod a b p c => exact .checked hi (.three_sources hu hx)
  | submod a b p c => exact .checked hi (.three_sources hu hx)

end

/-- A host read while IDLE faults at a word that holds no value. -/
theorem hostMemRead_unwritten {s : State} {a : Nat} (ha : a < s.cfg.memWords) (hp : s.phase = .idle)
    (hr : s.mem.read a = none) : hostMemRead a s = .fault (.unwrittenWord a) := by
  rw [hostMemRead, if_neg (by omega), State.busy_of_phase_idle hp, if_neg Bool.false_ne_true, hr]

/-- Settles O24: OPMEM is empty after reset, and both kinds of read fault at a word that holds no value. -/
theorem unwrittenWordsFault : Obligations.UnwrittenWordsFault :=
  ⟨fun _ _ => rfl, fun _ _ => hostMemRead_unwritten, fun _ _ _ => exec_faultsUnwritten⟩

/-! ### FLAG -/

/-- Only ADD and SUB answer a FLAG of 1. -/
theorem computed_flag {s : State} {i : Instr} {r : Result} (h : Computed s i r) (hf : r.flag = true) :
    ∃ (a b : Src) (c : BitVec 16), i = .add a b c ∨ i = .sub a b c := by
  cases h with
  | add => exact ⟨_, _, _, .inl rfl⟩
  | sub => exact ⟨_, _, _, .inr rfl⟩
  | mul _ _ hr | addmod _ _ _ _ _ hr | submod _ _ _ _ _ hr => cases hr; cases hf
  | div _ _ _ hr | modmul _ _ _ _ _ hr | modexp _ _ _ _ _ hr =>
    obtain ⟨_, _, hr⟩ := andThen_eq_ok hr
    cases hr
    cases hf

/-- Settles O28: an error entry clears FLAG, and of the commands that succeed only ADD and SUB answer it. -/
theorem flagIsSetByAddAndSubOnly : Obligations.FlagIsSetByAddAndSubOnly := by
  intro s t h hf
  rcases complete_next h with ⟨e, rfl⟩ | ⟨i, r, hd, hex, -, -, rfl⟩
  · cases hf
  · obtain ⟨r', hr', heq⟩ := exec_computed hex rfl
    rw [heq] at hf
    obtain ⟨a, b, c, hi⟩ := computed_flag hr' hf
    rw [hd]
    exact ⟨rfl, a, b, c, hi.imp (congrArg _) (congrArg _)⟩

/-! ### Faults and refusals -/

theorem Region.has_iff (r : Region) (a : Nat) : r.has a = true ↔ r.addr ≤ a ∧ a < r.addr + r.len := by
  simp [Region.has]

theorem hostRegRead_not_refused (off : Nat) (s : State) (r : Refusal) : hostRegRead off s ≠ .refused r := by
  rw [hostRegRead]
  cases Reg.ofOffset off <;> exact nofun

theorem hostRegWrite_not_refused (off : Nat) (v : Word32) (s : State) (r : Refusal) :
    hostRegWrite off v s ≠ .refused r := by
  rw [hostRegWrite]
  cases Reg.ofOffset off <;> exact nofun

theorem hostMemRead_not_refused (a : Nat) (s : State) (r : Refusal) : hostMemRead a s ≠ .refused r := by
  rw [hostMemRead]
  split_ifs
  · exact nofun
  · exact nofun
  · cases s.mem.read a <;> exact nofun

theorem hostMemWrite_not_refused (a : Nat) (v : Word) (s : State) (r : Refusal) :
    hostMemWrite a v s ≠ .refused r := by
  rw [hostMemWrite]
  split_ifs <;> exact nofun

theorem hostStep_not_refused (act : HostAction) (rest : List HostAction) (s : State) (r : Refusal) :
    hostStep act rest s ≠ .refused r := by
  cases act with
  | regRead off => exact hostRegRead_not_refused _ _ r
  | regWrite off v => exact hostRegWrite_not_refused _ v _ r
  | regNarrow off bits => exact nofun
  | memRead a => exact hostMemRead_not_refused a _ r
  | memWrite a v => exact hostMemWrite_not_refused a v _ r
  | wait => exact hostRegRead_not_refused (Reg.offset .status) _ r
  | reset => exact nofun

theorem hostTurn_not_refused (s : State) (r : Refusal) : hostTurn s ≠ .refused r := by
  rw [hostTurn]
  cases s.host with
  | nil => exact nofun
  | cons act rest => exact hostStep_not_refused act rest s r

theorem complete_not_refused (s : State) (r : Refusal) : complete s ≠ .refused r := by
  cases hd : decode s.snap with
  | reservedOp op => rw [complete_reserved hd]; exact nofun
  | command i => rw [complete_command hd]; exact exec_not_refused i s r

/-- Settles O37: neither agent's move is refused, and a command faults only at an unwritten word it reads. -/
theorem stepsNeverRefuse : Obligations.StepsNeverRefuse := by
  refine fun s => ⟨fun r => ?_, fun f hf => ?_⟩
  · cases hd : s.engineDue with
    | true => rw [step_of_due hd]; exact complete_not_refused s r
    | false => rw [step_of_not_due hd]; exact hostTurn_not_refused s r
  · cases hd : decode s.snap with
    | reservedOp op => rw [complete_reserved hd] at hf; cases hf
    | command i =>
      rw [complete_command hd] at hf
      obtain ⟨a, x, hfa, hx, hin, hnone⟩ := exec_fault hf
      obtain ⟨hge, hlt⟩ := (Region.has_iff _ _).mp hin
      exact ⟨i, a, x, rfl, hx, hfa, hge, hlt, hnone⟩

/-! ### The configuration registers -/

theorem complete_cfg {s t : State} (h : complete s = .next t) : t.cfg = s.cfg := by
  rcases complete_next h with ⟨_, rfl⟩ | ⟨_, _, _, _, _, _, rfl⟩ <;> rfl

theorem HostMove.cfg_eq {s t : State} (h : HostMove s t) : t.cfg = s.cfg := by
  cases h with
  | writesReg rest v r => exact State.writeReg_cfg _ v r
  | _ => rfl

/-- No step changes the parameters. -/
theorem step_cfg {s t : State} (h : step s = .next t) : t.cfg = s.cfg := by
  rcases step_next h with ⟨-, hc⟩ | hm
  · exact complete_cfg hc
  · exact hm.cfg_eq

/-- CFG0 holds the word width and NMAX side by side (10_state.md rule R23). -/
theorem cfg0Word_toNat {c : Config} (h : c.legal = true) : (Config.cfg0Word c).toNat = 16 + 256 * c.nmax := by
  simp only [Config.legal, Bool.and_eq_true, decide_eq_true_iff] at h
  obtain ⟨⟨⟨-, hn⟩, -⟩, -⟩ := h
  have hdisjoint := Nat.shiftLeft_add_eq_or_of_lt (show 16 < 2 ^ 8 by decide) c.nmax
  have hfits : c.nmax <<< 8 < 2 ^ 32 := by rw [Nat.shiftLeft_eq]; omega
  rw [Config.cfg0Word, BitVec.toNat_or, BitVec.toNat_shiftLeft, BitVec.toNat_setWidth, BitVec.toNat_ofNat,
    BitVec.toNat_ofNat, Nat.mod_eq_of_lt (show c.nmax < 2 ^ 8 by omega), Nat.mod_eq_of_lt (show c.nmax < 2 ^ 32 by omega),
    Nat.mod_eq_of_lt hfits, Nat.lor_comm, Nat.mod_eq_of_lt (show 16 < 2 ^ 32 by decide), ← hdisjoint, Nat.shiftLeft_eq]
  omega

/-- CFG1 holds MEM_WORDS (10_state.md rule R24). -/
theorem cfg1Word_toNat {c : Config} (h : c.legal = true) : (Config.cfg1Word c).toNat = c.memWords := by
  simp only [Config.legal, Bool.and_eq_true, decide_eq_true_iff] at h
  rw [Config.cfg1Word, BitVec.toNat_setWidth, BitVec.toNat_ofNat]
  omega

/-- Settles O34: both registers show the parameters, which no step changes. -/
theorem configurationRegistersAreConstant : Obligations.ConfigurationRegistersAreConstant := by
  refine ⟨fun s t h => ?_, fun s h => ⟨cfg0Word_toNat h, cfg1Word_toNat h⟩⟩
  have hcfg := step_cfg h
  exact ⟨congrArg Config.cfg0Word hcfg, congrArg Config.cfg1Word hcfg, hcfg⟩

/-! ### OPMEM -/

/-- A completion step changes a word only by succeeding, in a result region of its command. -/
theorem complete_mem_changed {s t : State} {a : Nat} (h : complete s = .next t)
    (hne : t.mem.read a ≠ s.mem.read a) :
    t.status.err = false ∧ ∃ i, decode s.snap = .command i ∧ ∃ r ∈ results i, r.has a = true := by
  rcases complete_next h with ⟨e, rfl⟩ | ⟨i, r, hd, -, -, -, rfl⟩
  · exact absurd rfl hne
  · refine ⟨rfl, i, hd, ?_⟩
    by_contra hout
    push Not at hout
    exact hne (Mem.read_storeResults _ _ _ a fun q hq => by simpa using hout q hq)

/-- A move of the host's side changes a word only by writing it while IDLE, or by the reset. -/
theorem HostMove.mem_changed {s t : State} {a : Nat} (h : HostMove s t) (hne : t.mem.read a ≠ s.mem.read a) :
    (s.phase = .idle ∧ ∃ v rest, s.host = .memWrite a v :: rest ∧ t.mem.read a = some v) ∨
      ∃ rest, s.host = .reset :: rest ∧ t.mem = [] := by
  cases h with
  | ownFields => exact absurd rfl hne
  | writesReg rest v r => exact absurd (by rw [State.writeReg_mem]; rfl) hne
  | writesWord b v rest hh _ hb =>
    by_cases hab : a = b
    · subst hab
      exact .inl ⟨(State.busy_eq_false_iff s).mp hb, v, rest, hh, Mem.read_write_same _ _ _⟩
    · exact absurd (Mem.read_write_ne _ _ _ _ hab) hne
  | resets rest hh => exact .inr ⟨rest, hh, rfl⟩

/-- Settles O35: the engine changes result regions alone, the host's side one word or, by the reset, all. -/
theorem onlyHostAndEngineChangeOpmem : Obligations.OnlyHostAndEngineChangeOpmem := by
  intro s t a h hne
  rcases step_next h with ⟨hp, hc⟩ | hm
  · exact .inr (.inl ⟨hp, complete_mem_changed hc hne⟩)
  · exact (hm.mem_changed hne).imp id .inr

end Sys2Proof.Machine
end

section
/-! The registers of the host port: the command registers and INTEN under a write, and every register after reset
(10_state.md rules R28, R29, R41; 70_reset_and_hazards.md rule R353). -/

namespace Sys2Proof.Machine

theorem hostRegWrite_of_offset {off : Nat} {r : Reg} (h : Reg.ofOffset off = some r) (v : Word32) (s : State) :
    hostRegWrite off v s = .next (s.writeReg v r) := by
  rw [hostRegWrite, h]

theorem hostRegRead_of_offset {off : Nat} {r : Reg} (h : Reg.ofOffset off = some r) (s : State) :
    hostRegRead off s = .next { s with reply := .reg (s.readReg r) } := by
  rw [hostRegRead, h]

/-! ### The command registers -/

/-- The low `n` bits of a register word are its bits under the mask of `n` ones. -/
theorem setWidth_setWidth_eq_and (v : Word32) (n : Nat) (h : n ≤ 32) :
    ((v.setWidth n).setWidth 32 : Word32) = v &&& BitVec.ofNat 32 (2 ^ n - 1) := by
  apply BitVec.eq_of_toNat_eq
  have hpow : 2 ^ n ≤ 2 ^ 32 := Nat.pow_le_pow_right (by decide) h
  have hpos : 0 < 2 ^ n := by positivity
  have hlt : v.toNat % 2 ^ n < 2 ^ 32 := (Nat.mod_lt _ hpos).trans_le hpow
  rw [BitVec.toNat_setWidth, BitVec.toNat_setWidth, BitVec.toNat_and, BitVec.toNat_ofNat, Nat.mod_eq_of_lt hlt,
    Nat.mod_eq_of_lt (show 2 ^ n - 1 < 2 ^ 32 by omega), Nat.and_two_pow_sub_one_eq_mod]

/-- The field of a command register as a mask; none for a register that holds no part of a command (10_state.md
rule R29). -/
def Reg.fieldMask : Reg → Option Word32
  | .opcode => some 0xF#32
  | .addrA | .lenA | .addrB | .lenB | .addrM | .lenM | .addrC | .addrD => some 0xFFFF#32
  | .cfg0 | .cfg1 | .ctrl | .status | .inten | .reserved38 | .reserved3C => none

section
variable {r : Reg} {mask : Word32}

/-- A command register reads back the written value's field, its reserved bits 0. -/
theorem readReg_writeReg_same (s : State) (v : Word32) (h : r.fieldMask = some mask) :
    (s.writeReg v r).readReg r = v &&& mask := by
  cases r with
  | opcode => cases h; exact setWidth_setWidth_eq_and v 4 (by decide)
  | addrA | lenA | addrB | lenB | addrM | lenM | addrC | addrD =>
    cases h
    exact setWidth_setWidth_eq_and v 16 (by decide)
  | _ => cases h

/-- A write of a command register changes what that register reads, and what no other one does. -/
theorem readReg_writeReg_eq_ite (s : State) (v : Word32) (h : r.fieldMask = some mask) (r' : Reg) :
    (s.writeReg v r).readReg r' = if r' = r then (s.writeReg v r).readReg r else s.readReg r' := by
  cases r with
  | opcode | addrA | lenA | addrB | lenB | addrM | lenM | addrC | addrD => cases r' <;> rfl
  | _ => cases h

theorem readReg_writeReg_ne (s : State) (v : Word32) (h : r.fieldMask = some mask) {r' : Reg} (hne : r' ≠ r) :
    (s.writeReg v r).readReg r' = s.readReg r' := by
  rw [readReg_writeReg_eq_ite s v h, if_neg hne]

theorem writeReg_regs_only (s : State) (v : Word32) (h : r.fieldMask = some mask) :
    s.writeReg v r = { s with regs := (s.writeReg v r).regs } := by
  cases r with
  | opcode | addrA | lenA | addrB | lenB | addrM | lenM | addrC | addrD => rfl
  | _ => cases h

end

/-- Settles O42: the nine offsets are the command registers, each with its field's mask. -/
theorem commandRegistersKeepTheirField : Obligations.CommandRegistersKeepTheirField := by
  intro s v off mask hmem
  have hfield : ∀ p ∈ [(0x14, 0xF#32), (0x18, 0xFFFF#32), (0x1C, 0xFFFF#32), (0x20, 0xFFFF#32), (0x24, 0xFFFF#32),
      (0x28, 0xFFFF#32), (0x2C, 0xFFFF#32), (0x30, 0xFFFF#32), (0x34, 0xFFFF#32)],
      (Reg.ofOffset p.1).bind Reg.fieldMask = some p.2 := by decide
  obtain ⟨r, hr, hmask⟩ := Option.bind_eq_some_iff.mp (hfield (off, mask) hmem)
  exact ⟨_, r, hostRegWrite_of_offset hr v s, hr, readReg_writeReg_same s v hmask,
    fun r' hne => readReg_writeReg_ne s v hmask hne, writeReg_regs_only s v hmask⟩

/-! ### INTEN -/

/-- Bit 0 of a word, put back at position 0, is the word under the mask 1. -/
theorem bitWord_zero_eq_and (v : Word32) : bitWord (v.getLsbD 0) 0 = v &&& 0x1#32 := by
  refine Eq.trans ?_ (setWidth_setWidth_eq_and v 1 (by decide))
  rw [bitWord, BitVec.shiftLeft_zero]
  congr 1
  apply BitVec.eq_of_getLsbD_eq
  intro i hi
  obtain rfl : i = 0 := by omega
  simp

/-- Settles O43: a write of INTEN replaces DONE_IE, which INTEN and irq show. -/
theorem intenTakesEffectAtOnce : Obligations.IntenTakesEffectAtOnce := fun s v =>
  ⟨s.writeReg v .inten, hostRegWrite_of_offset rfl v s, bitWord_zero_eq_and v, rfl, rfl⟩

/-! ### After reset -/

theorem statusWord_idle_zero {s : State} (hp : s.phase = .idle) (hs : s.status = Status.zero) :
    s.statusWord = 0#32 := by
  rw [State.statusWord, State.busy_of_phase_idle hp, hs]
  decide

/-- After reset every register but the configuration reads 0. -/
theorem readReg_resetWith (cfg : Config) (r : Reg) (h0 : r ≠ .cfg0) (h1 : r ≠ .cfg1) :
    (State.resetWith cfg).readReg r = 0#32 := by
  cases r with
  | cfg0 => exact absurd rfl h0
  | cfg1 => exact absurd rfl h1
  | status => exact statusWord_idle_zero rfl rfl
  | _ => rfl

/-- Settles O51: the offsets from 0x08 on are registers that read 0 after reset, and the configuration registers show the
parameters. -/
theorem registersAfterReset : Obligations.RegistersAfterReset := by
  refine ⟨fun cfg hc => ⟨fun off hoff => ?_, cfg0Word_toNat hc, cfg1Word_toNat hc, rfl, rfl, fun _ => rfl⟩,
    rfl, rfl, rfl⟩
  have hreg : ∀ off ∈ [0x08, 0x0C, 0x10, 0x14, 0x18, 0x1C, 0x20, 0x24, 0x28, 0x2C, 0x30, 0x34, 0x38, 0x3C],
      (Reg.ofOffset off).any (fun r => decide (r ≠ .cfg0 ∧ r ≠ .cfg1)) = true := by decide
  obtain ⟨r, hr, hne⟩ := (Option.any_eq_true _ _).mp (hreg off hoff)
  obtain ⟨h0, h1⟩ := of_decide_eq_true hne
  rw [hostRegRead_of_offset hr, readReg_resetWith cfg r h0 h1]

end Sys2Proof.Machine
end

section
/-! The host port: which accesses are decoded, and what an OPMEM or register access answers and leaves (20_memory.md
rules R61 to R63, R68). -/

namespace Sys2Proof.Machine

/-! ### Decoded offsets and addresses -/

/-- Exactly the multiples of 4 from 0x00 to 0x3C are offsets of registers. -/
theorem Reg.ofOffset_isSome_iff (off : Nat) : (Reg.ofOffset off).isSome = true ↔ off % 4 = 0 ∧ off ≤ 0x3C := by
  rw [Reg.ofOffset]
  split_ifs with h4
  · have hlen : Reg.map.length = 16 := rfl
    rw [isSome_getElem?, hlen]
    omega
  · simp [h4]

theorem Reg.ofOffset_eq_none {off : Nat} (h : ¬(off % 4 = 0 ∧ off ≤ 0x3C)) : Reg.ofOffset off = none := by
  rwa [← Reg.ofOffset_isSome_iff, Bool.not_eq_true, Option.isSome_eq_false_iff, Option.isNone_iff_eq_none] at h

theorem hostRegRead_undecoded {off : Nat} (h : Reg.ofOffset off = none) (s : State) :
    hostRegRead off s = .fault (.undecodedReg off) := by
  rw [hostRegRead, h]

theorem hostRegWrite_undecoded {off : Nat} (h : Reg.ofOffset off = none) (v : Word32) (s : State) :
    hostRegWrite off v s = .fault (.undecodedReg off) := by
  rw [hostRegWrite, h]

theorem hostMemRead_undecoded {s : State} {a : Nat} (h : s.cfg.memWords ≤ a) :
    hostMemRead a s = .fault (.undecodedMem a) := if_pos h

theorem hostMemWrite_undecoded {s : State} {a : Nat} (h : s.cfg.memWords ≤ a) (v : Word) :
    hostMemWrite a v s = .fault (.undecodedMem a) := if_pos h

/-- Settles O44: an offset names a register exactly where it is a multiple of 4 up to 0x3C. -/
theorem undecodedAccessesFault : Obligations.UndecodedAccessesFault := by
  refine ⟨fun off v s => ⟨fun hoff => ?_, fun hoff => ?_⟩, fun _ _ _ _ => rfl,
    fun a v s ha => ⟨hostMemRead_undecoded ha, hostMemWrite_undecoded ha v⟩⟩
  · obtain ⟨r, hr⟩ := Option.isSome_iff_exists.mp ((Reg.ofOffset_isSome_iff off).mpr hoff)
    exact ⟨⟨_, hostRegRead_of_offset hr s⟩, _, hostRegWrite_of_offset hr v s⟩
  · have hr := Reg.ofOffset_eq_none hoff
    exact ⟨hostRegRead_undecoded hr s, hostRegWrite_undecoded hr v s⟩

/-- Settles O45: each offset names its register, whose read is 0 or whose write is ignored. -/
theorem readOnlyAndReservedRegisters : Obligations.ReadOnlyAndReservedRegisters := by
  intro s v
  simp only [List.forall_mem_cons]
  exact ⟨⟨hostRegRead_of_offset (r := .ctrl) rfl s, hostRegRead_of_offset (r := .reserved38) rfl s,
      hostRegRead_of_offset (r := .reserved3C) rfl s, nofun⟩,
    hostRegWrite_of_offset (r := .cfg0) rfl v s, hostRegWrite_of_offset (r := .cfg1) rfl v s,
    hostRegWrite_of_offset (r := .status) rfl v s, hostRegWrite_of_offset (r := .reserved38) rfl v s,
    hostRegWrite_of_offset (r := .reserved3C) rfl v s, nofun⟩

/-! ### OPMEM accesses -/

section
variable {s : State} {a : Nat}

/-- While IDLE a host read answers the word that is stored. -/
theorem hostMemRead_stored {w : Word} (ha : a < s.cfg.memWords) (hp : s.phase = .idle)
    (hr : s.mem.read a = some w) : hostMemRead a s = .next { s with reply := .word w } := by
  rw [hostMemRead, if_neg (by omega), State.busy_of_phase_idle hp, if_neg Bool.false_ne_true, hr]

/-- While BUSY a host read answers the next free word. -/
theorem hostMemRead_busy (ha : a < s.cfg.memWords) (hp : s.phase = .busy) :
    hostMemRead a s = .next { s with reply := .word (Config.freeWord s.draws), draws := s.draws + 1 } := by
  rw [hostMemRead, if_neg (by omega), if_pos (State.busy_of_phase_busy hp)]

theorem hostMemWrite_idle (ha : a < s.cfg.memWords) (hp : s.phase = .idle) (v : Word) :
    hostMemWrite a v s = .next { s with mem := s.mem.write a v } := by
  rw [hostMemWrite, if_neg (by omega), State.busy_of_phase_idle hp, if_neg Bool.false_ne_true]

theorem hostMemWrite_busy (ha : a < s.cfg.memWords) (hp : s.phase = .busy) (v : Word) :
    hostMemWrite a v s = .next s := by
  rw [hostMemWrite, if_neg (by omega), if_pos (State.busy_of_phase_busy hp)]

end

/-- Settles O47: the write stores its word at its address alone. -/
theorem hostWriteThenRead : Obligations.HostWriteThenRead := fun _ _ v hp ha =>
  ⟨_, hostMemWrite_idle ha hp v, hostMemRead_stored ha hp (Mem.read_write_same _ _ _),
    fun _ hb => Mem.read_write_ne _ _ _ _ hb, rfl⟩

/-- Settles O48: while BUSY a write is ignored and a read answers the next free word. -/
theorem opmemIsFrozenWhileBusy : Obligations.OpmemIsFrozenWhileBusy := fun _ _ v hp ha =>
  ⟨hostMemWrite_busy ha hp v, _, hostMemRead_busy ha hp⟩

/-! ### Reads -/

/-- No register shows what the last host read returned. -/
theorem hostRegRead_reply (off : Nat) (s : State) (reply : Reply) :
    hostRegRead off { s with reply := reply } = hostRegRead off s := by
  rw [hostRegRead, hostRegRead]
  cases Reg.ofOffset off with
  | none => rfl
  | some r => cases r <;> rfl

/-- Settles O46: a read sets the reply, which no register shows and no OPMEM read depends on; while BUSY it also draws a
free word. -/
theorem readsHaveNoSideEffect : Obligations.ReadsHaveNoSideEffect := by
  refine ⟨fun off s t h => ?_, fun a s t h => ?_⟩
  · obtain ⟨r, -, rfl⟩ := hostRegRead_next h
    exact ⟨rfl, (hostRegRead_reply off s _).trans h⟩
  · obtain ⟨ha, ⟨hb, rfl⟩ | ⟨-, w, hw, rfl⟩⟩ := hostMemRead_next h
    · refine ⟨rfl, fun hp => ?_⟩
      rw [State.busy_of_phase_idle hp] at hb
      cases hb
    · exact ⟨rfl, fun hp => hostMemRead_stored ha hp hw⟩

end Sys2Proof.Machine
end

section
/-! OPMEM and the running command: what a completion step leaves, what it stores, and that no host access but reset
disturbs it (20_memory.md rules R63, R70, R73, R75). -/

namespace Sys2Proof.Machine

/-! ### The frame of a completion step -/

/-- Settles O30: an error changes STATUS alone, a result its regions, and the commands that do not divide answer the
buffers they were given. -/
theorem commandFrame : Obligations.CommandFrame := by
  intro i s t h
  rcases exec_next h with ⟨e, rfl⟩ | ⟨-, -, r, rfl⟩
  · exact ⟨rfl, rfl, rfl, rfl, rfl, rfl, rfl, fun _ _ => rfl, fun _ => rfl⟩
  · refine ⟨rfl, rfl, rfl, rfl, rfl, rfl, rfl, fun a hout => Mem.read_storeResults _ _ _ a hout, fun hkeeps => ?_⟩
    obtain ⟨r', hr', heq⟩ := exec_computed h rfl
    rw [heq, State.succeed_work]
    cases hr' with
    | add _ _ hr | sub _ _ hr | mul _ _ hr | addmod _ _ _ _ _ hr | submod _ _ _ _ _ hr => cases hr; rfl
    | div | modmul | modexp => exact hkeeps.elim

/-! ### What a successful command stores -/

/-- A command answers one value for each of its result regions. -/
theorem computed_values_length {s : State} {i : Instr} {r : Result} (h : Computed s i r) :
    r.values.length = (results i).length := by
  cases h with
  | add _ _ hr | sub _ _ hr | mul _ _ hr | addmod _ _ _ _ _ hr | submod _ _ _ _ _ hr => cases hr; rfl
  | div _ _ _ hr | modmul _ _ _ _ _ hr | modexp _ _ _ _ _ hr =>
    obtain ⟨_, _, hr⟩ := andThen_eq_ok hr
    cases hr
    rfl

theorem Mem.read_writeValue_isSome (m : Mem) (r : Region) (v a : Nat)
    (h : r.has a = true ∨ (m.read a).isSome = true) : ((m.writeValue r.addr r.len v).read a).isSome = true := by
  rw [Mem.read_writeValue]
  split_ifs with hin
  · rfl
  · exact h.resolve_left fun hhas => hin ((Region.has_iff r a).mp hhas)

/-- Result writes leave no word without a value that had one. -/
theorem Mem.read_storeResults_isSome (m : Mem) (rs : List Region) (vs : List Nat) (a : Nat)
    (h : (m.read a).isSome = true) : ((m.storeResults rs vs).read a).isSome = true := by
  induction rs generalizing m vs with
  | nil => exact h
  | cons r rs ih => cases vs with
    | nil => exact h
    | cons v vs => exact ih _ vs (Mem.read_writeValue_isSome m r v a (.inr h))

/-- With a value for each region every word of every region is written. -/
theorem Mem.read_storeResults_region (m : Mem) (rs : List Region) (vs : List Nat) (hlen : vs.length = rs.length)
    {r : Region} (hr : r ∈ rs) {a : Nat} (ha : r.has a = true) : ((m.storeResults rs vs).read a).isSome = true := by
  induction rs generalizing m vs with
  | nil => cases hr
  | cons r' rs ih => cases vs with
    | nil => cases hlen
    | cons v vs =>
      rcases List.mem_cons.mp hr with rfl | hr
      · exact Mem.read_storeResults_isSome _ rs vs a (Mem.read_writeValue_isSome m r v a (.inl ha))
      · exact ih _ vs (Nat.succ.inj hlen) hr

/-- Every word of a result region lies inside OPMEM once the BOUNDS check has passed (40_control.md rule R104). -/
theorem lt_memWords_of_boundsOk {cfg : Config} {i : Instr} (hb : boundsOk cfg i = true) {r : Region}
    (hr : r ∈ results i) {a : Nat} (ha : r.has a = true) : a < cfg.memWords := by
  have hin : r.addr + r.len ≤ cfg.memWords :=
    of_decide_eq_true (List.all_eq_true.mp hb r (List.mem_append_right _ hr))
  exact ((Region.has_iff r a).mp ha).2.trans_le hin

/-- Settles O49: the regions are written whole and lie inside OPMEM, and the engine is IDLE. -/
theorem resultsAreReadableAfterCompletion : Obligations.ResultsAreReadableAfterCompletion := by
  intro s t i h hd ht q hq a ha
  rw [complete_command hd] at h
  obtain ⟨r, hr, rfl⟩ := exec_computed h ht
  rcases exec_next h with ⟨e, he⟩ | ⟨-, hb, -⟩
  · rw [he] at ht
    cases ht
  · obtain ⟨w, hw⟩ := Option.isSome_iff_exists.mp
      (Mem.read_storeResults_region s.mem _ _ (computed_values_length hr) hq ha)
    exact ⟨w, hw, hostMemRead_stored (lt_memWords_of_boundsOk hb hq ha) rfl hw⟩

/-! ### The running command -/

/-- What a host action but reset can change while BUSY: INTEN, the live command registers and the model's own fields,
the countdown by one. -/
theorem hostStep_busy {act : HostAction} {rest : List HostAction} {s t : State} (hp : s.phase = .busy)
    (hact : act ≠ .reset) (h : hostStep act rest s = .next t) :
    ∃ ie regs draws reply host,
      t = { s with doneIe := ie, regs := regs, delay := s.delay - 1, draws := draws, reply := reply, host := host } := by
  have hbusy : s.busy = true := State.busy_of_phase_busy hp
  cases act with
  | regRead off =>
    obtain ⟨r, -, rfl⟩ := hostRegRead_next h
    exact ⟨_, _, _, _, _, rfl⟩
  | regWrite off v =>
    obtain ⟨r, -, rfl⟩ := hostRegWrite_next h
    rcases writeReg_cases (s.advance rest) v r with ⟨ie, regs, heq⟩ | ⟨hidle, -⟩
    · exact ⟨ie, regs, _, _, _, heq⟩
    · exact absurd (hbusy.symm.trans hidle) nofun
  | regNarrow off bits => cases h
  | memRead a =>
    obtain ⟨-, ⟨-, rfl⟩ | ⟨-, w, -, rfl⟩⟩ := hostMemRead_next h
    · exact ⟨_, _, _, _, _, rfl⟩
    · exact ⟨_, _, _, _, _, rfl⟩
  | memWrite a v =>
    obtain ⟨-, ⟨-, rfl⟩ | ⟨hidle, -⟩⟩ := hostMemWrite_next h
    · exact ⟨_, _, _, _, _, rfl⟩
    · exact absurd (hbusy.symm.trans hidle) nofun
  | wait =>
    obtain ⟨r, -, rfl⟩ := hostRegRead_next (off := Reg.offset .status) h
    exact ⟨_, _, _, _, _, rfl⟩
  | reset => exact absurd rfl hact

/-- Settles O36: the host moves, and what it can change while BUSY is no part of the running command. -/
theorem runningCommandIsUndisturbed : Obligations.RunningCommandIsUndisturbed := by
  intro s t hp hh hd hreset h
  have hdue : s.engineDue = false := by
    rw [← Bool.not_eq_true, engineDue_eq_true_iff]
    exact fun hdue => hdue.2.elim hh hd
  rw [step_of_not_due hdue, hostTurn] at h
  cases hhost : s.host with
  | nil => exact absurd hhost hh
  | cons act rest =>
    rw [hhost] at h
    have hact : act ≠ .reset := fun ha => hreset rest (ha ▸ hhost)
    obtain ⟨ie, regs, draws, reply, host, rfl⟩ := hostStep_busy hp hact h
    exact ⟨rfl, rfl, hp, rfl, rfl, Nat.sub_add_cancel (Nat.one_le_iff_ne_zero.mpr hd)⟩

end Sys2Proof.Machine
end

section
/-! The command format: the register words of a command decode to it, the reserved OP values, and the fields a command
does not use (30_encoding.md rules R80 to R86). -/

namespace Sys2Proof.Machine

/-! ### Register words -/

theorem decode_encode (i : Instr) : decode (encode i) = .command i := by
  cases i <;> rfl

/-- A tuple survives being written out as nine register words. -/
theorem ofWords_toWords (k : Cmd) : Cmd.ofWords k.toWords = k := by
  simp [Cmd.ofWords, Cmd.toWords, regWordAt]

/-- The tuple depends on bits 3:0 of OPCODE and bits 15:0 of the eight descriptor words alone. -/
theorem ofWords_congr {ws ws' : List Word32}
    (hop : (regWordAt ws 0).setWidth 4 = ((regWordAt ws' 0).setWidth 4 : BitVec 4))
    (hfield : ∀ k, 1 ≤ k → k < 9 → (regWordAt ws k).setWidth 16 = ((regWordAt ws' k).setWidth 16 : BitVec 16)) :
    Cmd.ofWords ws = Cmd.ofWords ws' := by
  simp only [Cmd.ofWords, hop, hfield, Nat.reduceLeDiff, Nat.reduceLT]

/-- Settles O1: the words give the tuple of the encoder's words, which is `encode i`. -/
theorem registerWordsDecodeToTheirCommand : Obligations.RegisterWordsDecodeToTheirCommand := by
  intro i ws hop hfield
  calc decodeWords ws = decode (Cmd.ofWords (encodeWords i)) := congrArg decode (ofWords_congr hop hfield)
    _ = decode (encode i) := congrArg decode (ofWords_toWords (encode i))
    _ = .command i := decode_encode i

/-- Settles O4: each list of words evaluates to its command. -/
theorem sampleRegisterWordsDecode : Obligations.SampleRegisterWordsDecode := by
  unfold Obligations.SampleRegisterWordsDecode
  decide

/-! ### Reserved OP values -/

theorem decode_eq_reservedOp_iff (k : Cmd) (op : BitVec 4) :
    decode k = .reservedOp op ↔ op = k.op ∧ (k.op.toNat = 0 ∨ 9 ≤ k.op.toNat) := by
  rw [decode]
  split
  case h_9 h1 h2 h3 h4 h5 h6 h7 h8 =>
    have hout : k.op.toNat = 0 ∨ 9 ≤ k.op.toNat := by
      simp only [imp_false] at h1 h2 h3 h4 h5 h6 h7 h8
      omega
    rw [Decoded.reservedOp.injEq, eq_comm, and_iff_left hout]
  all_goals simp [*]

/-- Settles O2: the decoder answers a command at the OP values 1 to 8, and names any other. -/
theorem reservedOpValuesAreRejected : Obligations.ReservedOpValuesAreRejected := by
  intro k
  refine ⟨?_, fun op h => ((decode_eq_reservedOp_iff k op).mp h).1⟩
  rw [decode_eq_reservedOp_iff, eq_self_iff_true, true_and]

/-! ### Unused fields -/

/-- An outcome with its next state changed; a fault or a refusal stays. -/
def mapNext (g : State → State) : Outcome → Outcome
  | .next t => .next (g t)
  | .fault f => .fault f
  | .refused r => .refused r

/-- Two states that a completion step cannot tell apart: it reads the same in both, and its two ends at `s'` are its
ends at `s`, changed by `g`. -/
structure RunsAlike (s s' : State) (g : State → State) : Prop where
  cfg : s'.cfg = s.cfg
  mem : s'.mem = s.mem
  work : s'.work = s.work
  fail : ∀ e, s'.fail e = g (s.fail e)
  succeed : ∀ rs r, s'.succeed rs r = g (s.succeed rs r)

namespace RunsAlike
variable {s s' : State} {g : State → State}

theorem checked (h : RunsAlike s s' g) {i : Instr} {k k' : Outcome} (hk : k' = mapNext g k) :
    Machine.checked i s' k' = mapNext g (Machine.checked i s k) := by
  rw [Machine.checked, Machine.checked, h.cfg, hk, h.fail, h.fail]
  split_ifs <;> rfl

theorem withSrc (h : RunsAlike s s' g) {x : Src} {k k' : BigNat → Outcome} (hk : ∀ ws, k' ws = mapNext g (k ws)) :
    Machine.withSrc x s' k' = mapNext g (Machine.withSrc x s k) := by
  rw [Machine.withSrc, Machine.withSrc, h.mem]
  cases s.mem.readWords x.addr.toNat x.len.toNat with
  | error a => rfl
  | ok ws => exact hk ws

theorem require (h : RunsAlike s s' g) {e : ErrCode} {ok : Bool} {k k' : Outcome} (hk : k' = mapNext g k) :
    Machine.require e ok s' k' = mapNext g (Machine.require e ok s k) := by
  rw [Machine.require, Machine.require, hk, h.fail]
  split_ifs <;> rfl

theorem finish (h : RunsAlike s s' g) {i : Instr} (m : Work → Except ErrCode Result) :
    Machine.finish i s' (m s'.work) = mapNext g (Machine.finish i s (m s.work)) := by
  rw [h.work]
  cases m s.work with
  | error e => exact congrArg _ (h.fail e)
  | ok r => exact congrArg _ (h.succeed (results i) r)

/-- Every command ends alike at two such states. -/
theorem exec (h : RunsAlike s s' g) (i : Instr) : Machine.exec i s' = mapNext g (Machine.exec i s) := by
  cases i with
  | add a b c => exact h.checked <| h.withSrc fun va => h.withSrc fun vb => h.finish (computeAdd · va vb)
  | sub a b c => exact h.checked <| h.withSrc fun va => h.withSrc fun vb => h.finish (computeSub · va vb)
  | mul a b c => exact h.checked <| h.withSrc fun va => h.withSrc fun vb => h.finish (computeMul · va vb)
  | div x y q r =>
    exact h.checked <| h.withSrc fun vx => h.withSrc fun vy => h.require <| h.finish (computeDiv · vx vy)
  | modmul a b p c =>
    exact h.checked <| h.withSrc fun va => h.withSrc fun vb => h.withSrc fun vp => h.require <| h.require <|
      h.finish (computeModmul · va vb vp)
  | modexp g e p c =>
    exact h.checked <| h.withSrc fun vg => h.withSrc fun ve => h.withSrc fun vp => h.require <| h.require <|
      h.finish (computeModexp · vg ve vp)
  | addmod a b p c =>
    exact h.checked <| h.withSrc fun va => h.withSrc fun vb => h.withSrc fun vp => h.require <| h.require <|
      h.finish (computeAddmod · va vb vp)
  | submod a b p c =>
    exact h.checked <| h.withSrc fun va => h.withSrc fun vb => h.withSrc fun vp => h.require <| h.require <|
      h.finish (computeSubmod · va vb vp)

/-- So does the completion step, where both snapshots decode alike. -/
theorem complete (h : RunsAlike s s' g) (hd : decode s'.snap = decode s.snap) :
    Machine.complete s' = mapNext g (Machine.complete s) := by
  rw [Machine.complete, Machine.complete, hd]
  cases decode s.snap with
  | reservedOp op => exact congrArg _ (h.fail .badOpcode)
  | command i => exact h.exec i

end RunsAlike

/-- A completion step reads the snapshot only to decode it, and keeps it. -/
theorem runsAlike_snap (s : State) (k : Cmd) :
    RunsAlike s { s with snap := k } fun t => { t with snap := k } :=
  ⟨rfl, rfl, rfl, fun _ => rfl, fun _ _ => rfl⟩

/-- ADD, SUB and MUL use neither operand M nor address D. -/
theorem decode_of_two {k : Cmd} (am lm ad : BitVec 16) (h : k.op = 1 ∨ k.op = 2 ∨ k.op = 3) :
    decode { k with am := am, lm := lm, ad := ad } = decode k := by
  rcases h with h | h | h <;> rw [decode, decode, h] <;> rfl

/-- DIV does not use operand M. -/
theorem decode_of_div {k : Cmd} (am lm : BitVec 16) (h : k.op = 4) :
    decode { k with am := am, lm := lm } = decode k := by
  rw [decode, decode, h]
  rfl

/-- The modular commands do not use address D. -/
theorem decode_of_three {k : Cmd} (ad : BitVec 16) (h : k.op = 5 ∨ k.op = 6 ∨ k.op = 7 ∨ k.op = 8) :
    decode { k with ad := ad } = decode k := by
  rcases h with h | h | h | h <;> rw [decode, decode, h] <;> rfl

/-- Settles O3: the decoder drops the unused fields, and a completion step reads S only through the decoder. -/
theorem unusedFieldsDoNotMatter : Obligations.UnusedFieldsDoNotMatter := by
  intro s k am lm ad hk
  have hd : decode k = decode s.snap := by
    rcases hk with ⟨hop, rfl⟩ | ⟨hop, rfl⟩ | ⟨hop, rfl⟩
    · exact decode_of_two am lm ad hop
    · exact decode_of_div am lm hop
    · exact decode_of_three ad hop
  have hc := (runsAlike_snap s k).complete hd
  exact ⟨hd, fun t ht => by rw [hc, ht]; rfl, fun f hf => by rw [hc, hf]; rfl⟩

/-! ### Illegal lengths -/

/-- Every command begins with the LENGTH and the BOUNDS check (40_control.md rule R103). -/
theorem exec_eq_checked (i : Instr) (s : State) : ∃ k, exec i s = checked i s k := by
  cases i <;> exact ⟨_, rfl⟩

theorem checked_length {i : Instr} {s : State} (h : lengthsOk s.cfg i = false) (k : Outcome) :
    checked i s k = .next (s.fail .length) := by
  rw [checked, h, if_neg Bool.false_ne_true]

/-- Settles O20: the LENGTH check is the legality of rule R85, and comes first. -/
theorem illegalLengthsEndInLength : Obligations.IllegalLengthsEndInLength := by
  intro i s h
  obtain ⟨k, hk⟩ := exec_eq_checked i s
  rw [hk, checked_length ((lengthsOk_eq s.cfg i).trans h)]

end Sys2Proof.Machine
end

section
/-! Runs of the host's list: MWV, and the expansion of a command up to its completion step (30_encoding.md rules R88,
R89; 40_control.md rules R102, R109). -/

namespace Sys2Proof.Machine

/-! ### Runs of several steps -/

section
variable {M : Host.Core} {s t : M.State}

theorem run_succ (h : M.step s = .next t) (k : Nat) : M.run (k + 1) s = M.run k t := by
  rw [Host.Core.run, h]

theorem run_one (s : M.State) : M.run 1 s = M.step s := by
  rw [Host.Core.run]
  cases M.step s <;> rfl

/-- A run that goes on for `n` steps goes on from where they led. -/
theorem run_add {n : Nat} (h : M.run n s = .next t) (k : Nat) : M.run (n + k) s = M.run k t := by
  induction n generalizing s with
  | zero =>
    cases h
    rw [Nat.zero_add]
  | succ n ih =>
    cases hs : M.step s with
    | next u =>
      rw [run_succ hs] at h
      rw [Nat.succ_add, run_succ hs, ih h]
    | fault f => rw [Host.Core.run, hs] at h; cases h
    | refused r => rw [Host.Core.run, hs] at h; cases h

end

theorem runSteps_succ {s t : State} (h : step s = .next t) (k : Nat) : runSteps (k + 1) s = runSteps k t :=
  run_succ (M := core) h k

theorem runSteps_one (s : State) : runSteps 1 s = step s := run_one (M := core) s

theorem runSteps_add {n : Nat} {s t : State} (h : runSteps n s = .next t) (k : Nat) :
    runSteps (n + k) s = runSteps k t :=
  run_add (M := core) h k

/-- The host moves while the engine is IDLE or its countdown runs. -/
theorem step_host {s : State} {act : HostAction} {rest : List HostAction} (hh : s.host = act :: rest)
    (h : s.phase = .idle ∨ s.delay ≠ 0) : step s = hostStep act rest s := by
  have hdue : s.engineDue = false := by
    rw [← Bool.not_eq_true, engineDue_eq_true_iff]
    rintro ⟨hp, hnil | hd⟩
    · exact List.cons_ne_nil _ _ (hh.symm.trans hnil)
    · exact h.elim (fun hi => nomatch hp.symm.trans hi) (absurd hd)
  rw [step_of_not_due hdue, hostTurn, hh]

/-! ### MWV -/

theorem step_memWrite {s : State} {a : Nat} {v : Word} {rest : List HostAction} (hp : s.phase = .idle)
    (hh : s.host = .memWrite a v :: rest) (ha : a < s.cfg.memWords) :
    step s = .next { s with mem := s.mem.write a v, delay := s.delay - 1, host := rest } :=
  (step_host hh (.inl hp)).trans (hostMemWrite_idle (s := s.advance rest) ha hp v)

/-- MWV's `n` steps write its region and take its actions off the list. -/
theorem runSteps_mwv {s : State} {a n v : Nat} {rest : List HostAction} (hp : s.phase = .idle)
    (hin : a + n ≤ s.cfg.memWords) (hh : s.host = mwv a n v ++ rest) :
    runSteps n s = .next { s with mem := s.mem.writeValue a n v, delay := s.delay - n, host := rest } := by
  induction n generalizing s a v with
  | zero =>
    obtain rfl : rest = s.host := hh.symm
    rfl
  | succ n ih =>
    have hdelay : s.delay - (n + 1) = s.delay - 1 - n := by omega
    have hin' : a + 1 + n ≤ s.cfg.memWords := by omega
    rw [runSteps_succ (step_memWrite hp hh (by omega)), hdelay]
    exact ih hp hin' rfl

/-- Settles O54: the actions of MWV are OPMEM writes while IDLE, one step each. -/
theorem mwvStoresTheValue : Obligations.MwvStoresTheValue := fun _ _ _ _ _ hp hin hh =>
  ⟨_, runSteps_mwv hp hin hh, rfl, rfl, hp, rfl, rfl, rfl, rfl⟩

/-! ### The register writes of a command -/

/-- A host action that writes a command register. -/
def isFieldWrite : HostAction → Bool
  | .regWrite off _ => ((Reg.ofOffset off).bind Reg.fieldMask).isSome
  | _ => false

/-- The live command registers after a register write, which reads no other part of the state. -/
def regsAfter (k : Cmd) : HostAction → Cmd
  | .regWrite off v => (Reg.ofOffset off).elim k fun r => ((State.reset.withRegs k).writeReg v r).regs
  | _ => k

theorem regsAfter_wr (k : Cmd) (r : Reg) (v : Word32) :
    regsAfter k (wr r v) = ((State.reset.withRegs k).writeReg v r).regs := by
  rw [wr, regsAfter, Reg.ofOffset_offset, Option.elim]

theorem writeReg_eq_withRegs (s : State) (v : Word32) {r : Reg} {mask : Word32} (h : r.fieldMask = some mask) :
    s.writeReg v r = s.withRegs ((State.reset.withRegs s.regs).writeReg v r).regs := by
  cases r with
  | opcode | addrA | lenA | addrB | lenB | addrM | lenM | addrC | addrD => rfl
  | _ => cases h

theorem hostStep_fieldWrite {act : HostAction} (h : isFieldWrite act = true) (rest : List HostAction) (s : State) :
    hostStep act rest s = .next ((s.advance rest).withRegs (regsAfter s.regs act)) := by
  cases act with
  | regWrite off v =>
    obtain ⟨mask, hmask⟩ := Option.isSome_iff_exists.mp h
    obtain ⟨r, hr, hr'⟩ := Option.bind_eq_some_iff.mp hmask
    rw [hostStep, hostRegWrite_of_offset hr, writeReg_eq_withRegs _ _ hr', regsAfter, hr]
    rfl
  | _ => cases h

/-- Writes of command registers take one step each and change these registers alone. -/
theorem runSteps_fieldWrites {s : State} {acts rest : List HostAction} (hp : s.phase = .idle)
    (hw : acts.all isFieldWrite = true) (hh : s.host = acts ++ rest) :
    runSteps acts.length s =
      .next { s with regs := acts.foldl regsAfter s.regs, delay := s.delay - acts.length, host := rest } := by
  induction acts generalizing s with
  | nil =>
    obtain rfl : rest = s.host := hh.symm
    rfl
  | cons act acts ih =>
    obtain ⟨hact, hacts⟩ := Bool.and_eq_true_iff.mp hw
    have hdelay : s.delay - (acts.length + 1) = s.delay - 1 - acts.length := by omega
    have hstep := (step_host hh (.inl hp)).trans (hostStep_fieldWrite hact (acts ++ rest) s)
    rw [List.length_cons, runSteps_succ hstep, hdelay]
    exact ih hp hacts rfl

section
variable (k : Cmd)

theorem regsAfter_writeTwo (op : BitVec 4) (a b : Src) : (writeTwo op a b).foldl regsAfter k =
    { k with op := op, aa := a.addr, la := a.len, ab := b.addr, lb := b.len } := by
  simp [writeTwo, regsAfter_wr, State.writeReg]

theorem regsAfter_writeM (m : Src) : (writeM m).foldl regsAfter k = { k with am := m.addr, lm := m.len } := by
  simp [writeM, regsAfter_wr, State.writeReg]

theorem regsAfter_writeC (c : BitVec 16) : (writeC c).foldl regsAfter k = { k with ac := c } := by
  simp [writeC, regsAfter_wr, State.writeReg]

theorem regsAfter_wr_addrD (d : BitVec 16) : regsAfter k (wr .addrD (d.setWidth 32)) = { k with ad := d } := by
  simp [regsAfter_wr, State.writeReg]

end

theorem setupWrites_isFieldWrite (i : Instr) : (setupWrites i).all isFieldWrite = true := by
  cases i <;> rfl

/-- The register writes of a command leave its tuple, whatever the registers held (rule R89). -/
theorem decode_setupWrites (i : Instr) (k : Cmd) : decode ((setupWrites i).foldl regsAfter k) = .command i := by
  cases i <;>
    simp only [setupWrites, List.foldl_append, List.foldl_cons, List.foldl_nil, regsAfter_writeTwo, regsAfter_writeM,
      regsAfter_writeC, regsAfter_wr_addrD] <;>
    rfl

/-! ### START and WAIT -/

/-- The write of START while IDLE is accepted, and S captures the live registers. -/
theorem step_start {s : State} {rest : List HostAction} (hp : s.phase = .idle) (hh : s.host = wr .ctrl 0x1 :: rest) :
    step s = .next ((s.advance rest).accept s.regs) := by
  have hidle : (s.advance rest).busy = false := State.busy_of_phase_idle hp
  rw [step_host hh (.inl hp), wr, hostStep, hostRegWrite_of_offset (Reg.ofOffset_offset _), State.writeReg,
    State.writeCtrl, hidle]
  rfl

/-- While the countdown runs a WAIT polls STATUS and stays at the head of the list. -/
theorem step_wait_busy {s : State} {rest : List HostAction} (hp : s.phase = .busy) (hh : s.host = .wait :: rest)
    (hd : s.delay ≠ 0) : step s = .next { s with delay := s.delay - 1, reply := .reg s.statusWord } := by
  rw [step_host hh (.inr hd), hostStep, State.busy_of_phase_busy hp, if_pos rfl, ← hh,
    hostRegRead_of_offset (Reg.ofOffset_offset _)]
  rfl

/-- A waiting host reaches the completion step of the running command once the countdown is over; its polls, if it made
any, answered STATUS as it stands while BUSY. -/
theorem runSteps_wait {s : State} {rest : List HostAction} (hp : s.phase = .busy) (hh : s.host = .wait :: rest) :
    runSteps (s.delay + 1) s =
      complete { s with delay := 0, reply := if s.delay = 0 then s.reply else .reg s.statusWord } := by
  induction hd : s.delay generalizing s with
  | zero =>
    have hs : { s with delay := 0, reply := s.reply } = s := by rw [← hd]
    rw [if_pos rfl, hs, ← step_of_due ((engineDue_eq_true_iff s).mpr ⟨hp, .inr hd⟩)]
    exact runSteps_one s
  | succ d ih =>
    have hne : s.delay ≠ 0 := hd ▸ Nat.succ_ne_zero d
    have hpoll : s.delay - 1 = d := congrArg (· - 1) hd
    have hrest := ih (s := { s with delay := s.delay - 1, reply := .reg s.statusWord }) hp hh hpoll
    rw [runSteps_succ (step_wait_busy hp hh hne), hrest, if_neg (Nat.succ_ne_zero d)]
    exact congrArg (fun r => complete { s with delay := 0, reply := r }) (ite_self _)

/-- The steps of an expansion up to WAIT: the tuple its register writes leave is captured by the START. -/
theorem runSteps_expand {s : State} {i : Instr} {rest : List HostAction} (hp : s.phase = .idle)
    (hh : s.host = expand i ++ rest) :
    ∃ k : Cmd, decode k = .command i ∧ runSteps ((setupWrites i).length + 1) s =
      .next ({ s with regs := k, host := .wait :: rest }.accept k) := by
  rw [expand, List.append_assoc] at hh
  refine ⟨_, decode_setupWrites i s.regs, ?_⟩
  rw [runSteps_add (runSteps_fieldWrites hp (setupWrites_isFieldWrite i) hh)]
  exact (runSteps_one _).trans (step_start hp rfl)

/-- Settles O55: after the START a waiting host reaches the completion step of the captured tuple. -/
theorem expansionRunsItsCommand : Obligations.ExpansionRunsItsCommand := by
  intro s i rest hp hh
  obtain ⟨k, hk, hrun⟩ := runSteps_expand hp hh
  have hwait := runSteps_wait (s := { s with regs := k, host := .wait :: rest }.accept k) rfl rfl
  exact ⟨_, _, (runSteps_add hrun _).trans (hwait.trans (complete_command hk)), hk, rfl, rfl, rfl, rfl, rfl,
    rfl, rfl⟩

end Sys2Proof.Machine
end

section
/-! The check sequence of a command: BOUNDS, DIVISOR and RANGE, and which codes a command can end in (40_control.md
rules R103 to R106). -/

namespace Sys2Proof.Machine

/-! ### Regions outside OPMEM -/

theorem checked_bounds {i : Instr} {s : State} (hl : lengthsOk s.cfg i = true) (hb : boundsOk s.cfg i = false)
    (k : Outcome) : checked i s k = .next (s.fail .bounds) := by
  rw [checked, if_pos hl, hb, if_neg Bool.false_ne_true]

/-- Settles O21: the BOUNDS check is the condition of rule R104, and comes second. -/
theorem regionsOutsideEndInBounds : Obligations.RegionsOutsideEndInBounds := by
  intro i s hl hb
  obtain ⟨k, hk⟩ := exec_eq_checked i s
  rw [hk, checked_bounds ((lengthsOk_eq s.cfg i).trans hl) ((boundsOk_eq s.cfg i).trans hb)]

/-! ### A well-formed command on written operands -/

section
variable {i : Instr} {s : State} {a b p : Src} {va vb vp : BigNat}

/-- A well-formed command of two written operands goes on with their words. -/
theorem two_sources_ok {k : BigNat → BigNat → Outcome} (hi : i.wellFormed s.cfg = true) (ha : s.holds a va)
    (hb : s.holds b vb) : checked i s (withSrc a s fun va => withSrc b s fun vb => k va vb) = k va vb := by
  obtain ⟨hlen, hbounds⟩ := checks_of_wellFormed hi
  rw [checked_ok hlen hbounds, withSrc_ok ha, withSrc_ok hb]

/-- A well-formed command of three written operands goes on with their words. -/
theorem three_sources_ok {k : BigNat → BigNat → BigNat → Outcome} (hi : i.wellFormed s.cfg = true)
    (ha : s.holds a va) (hb : s.holds b vb) (hp : s.holds p vp) :
    checked i s (withSrc a s fun va => withSrc b s fun vb => withSrc p s fun vp => k va vb vp) = k va vb vp :=
  (two_sources_ok hi ha hb).trans (withSrc_ok hp)

end

section
variable {s : State} {x : Src} {ws : BigNat}

/-- The divisor condition of rule R105 on an operand's length and words. -/
theorem divisorOk_iff (h : s.holds x ws) :
    divisorOk ws = true ↔ 1 < x.len.toNat ∧ wordAt ws (x.len.toNat - 1) ≠ 0 := by
  rw [divisorOk, Bool.and_eq_true, decide_eq_true_iff, decide_eq_true_iff, holds_length h]

theorem divisorOk_eq_false (h : s.holds x ws) (hbad : x.len.toNat ≤ 1 ∨ wordAt ws (x.len.toNat - 1) = 0) :
    divisorOk ws = false := by
  rw [← Bool.not_eq_true, divisorOk_iff h]
  rintro ⟨hlen, htop⟩
  exact hbad.elim hlen.not_ge htop

/-- The modulus condition of rule R105 for ADDMOD and SUBMOD. -/
theorem modulusOk_iff (h : s.holds x ws) : modulusOk ws = true ↔ wordAt ws (x.len.toNat - 1) ≠ 0 := by
  rw [modulusOk, decide_eq_true_iff, holds_length h]

theorem modulusOk_eq_false (h : s.holds x ws) (htop : wordAt ws (x.len.toNat - 1) = 0) : modulusOk ws = false := by
  rw [← Bool.not_eq_true, modulusOk_iff h]
  exact not_not_intro htop

end

theorem reduced_eq_false {x p : BigNat} (h : val p ≤ val x) : reduced x p = false := decide_eq_false h.not_gt

theorem reduced_and_eq_false {a b p : BigNat} (h : val p ≤ val a ∨ val p ≤ val b) :
    (reduced a p && reduced b p) = false :=
  Bool.and_eq_false_iff.mpr (h.imp reduced_eq_false reduced_eq_false)

/-- A first value check that fails ends a three-operand command in its error. -/
theorem three_sources_fail {i : Instr} {s : State} {a b p : Src} {va vb vp : BigNat} {e : ErrCode}
    {ok : BigNat → Bool} {k : BigNat → BigNat → BigNat → Outcome} (hi : i.wellFormed s.cfg = true)
    (ha : s.holds a va) (hb : s.holds b vb) (hp : s.holds p vp) (hok : ok vp = false) :
    checked i s (withSrc a s fun va => withSrc b s fun vb => withSrc p s fun vp => require e (ok vp) s (k va vb vp)) =
      .next (s.fail e) :=
  (three_sources_ok hi ha hb hp).trans (require_fail hok)

/-- A second value check that fails, behind a first that passes, ends a three-operand command in its error. -/
theorem three_sources_second_fail {i : Instr} {s : State} {a b p : Src} {va vb vp : BigNat} {e e' : ErrCode}
    {ok : BigNat → Bool} {ok' : BigNat → BigNat → BigNat → Bool} {k : BigNat → BigNat → BigNat → Outcome}
    (hi : i.wellFormed s.cfg = true) (ha : s.holds a va) (hb : s.holds b vb) (hp : s.holds p vp)
    (hok : ok vp = true) (hok' : ok' va vb vp = false) :
    checked i s (withSrc a s fun va => withSrc b s fun vb => withSrc p s fun vp =>
      require e (ok vp) s (require e' (ok' va vb vp) s (k va vb vp))) = .next (s.fail e') :=
  (three_sources_ok hi ha hb hp).trans ((require_ok hok).trans (require_fail hok'))

/-! ### The codes a command can end in -/

/-- The error codes of the checks a command makes (rules R103 to R106). -/
def errorCodes : Instr → List ErrCode
  | .add _ _ _ | .sub _ _ _ | .mul _ _ _ => [.length, .bounds]
  | .div _ _ _ _ => [.length, .bounds, .divisor]
  | .modmul _ _ _ _ | .modexp _ _ _ _ | .addmod _ _ _ _ | .submod _ _ _ _ => [.length, .bounds, .divisor, .range]

theorem length_mem_errorCodes (i : Instr) : ErrCode.length ∈ errorCodes i := by cases i <;> exact .head _

theorem bounds_mem_errorCodes (i : Instr) : ErrCode.bounds ∈ errorCodes i := by cases i <;> exact .tail _ (.head _)

/-- The outcome, if it goes on, shows ERRCODE 0 or one of the codes. -/
def EndsIn (es : List ErrCode) (o : Outcome) : Prop :=
  ∀ t, o = .next t → t.status.errcode = 0 ∨ ∃ e ∈ es, t.status.errcode = e.bits

section
variable {es : List ErrCode} {i : Instr} {s : State}

theorem EndsIn.fail {e : ErrCode} (he : e ∈ es) : EndsIn es (.next (s.fail e)) := by
  rintro _ ⟨⟩
  exact .inr ⟨e, he, rfl⟩

theorem EndsIn.checked {k : Outcome} (hk : i.lengthsLegal s.cfg = true → EndsIn (errorCodes i) k) :
    EndsIn (errorCodes i) (checked i s k) := by
  rw [Machine.checked, lengthsOk_eq]
  split_ifs with hl
  · exact hk hl
  · exact .fail (bounds_mem_errorCodes i)
  · exact .fail (length_mem_errorCodes i)

theorem EndsIn.withSrc {x : Src} {k : BigNat → Outcome} (hk : ∀ ws, s.holds x ws → EndsIn es (k ws)) :
    EndsIn es (withSrc x s k) := by
  intro t h
  obtain ⟨ws, hws, h⟩ := withSrc_next h
  exact hk ws hws t h

theorem EndsIn.require {e : ErrCode} {ok : Bool} {k : Outcome} (he : e ∈ es) (hk : ok = true → EndsIn es k) :
    EndsIn es (require e ok s k) := by
  rw [Machine.require]
  split_ifs with hok
  · exact hk hok
  · exact .fail he

/-- A computation that answers a result ends its command without an error. -/
theorem EndsIn.finish {m : Except ErrCode Result} (hm : ∃ r, m = .ok r) : EndsIn es (finish i s m) := by
  obtain ⟨r, rfl⟩ := hm
  rintro _ ⟨⟩
  exact .inl rfl

/-- A code that is none of these is not shown. -/
theorem EndsIn.errcode_ne {o : Outcome} {t : State} (h : EndsIn es o) (ho : o = .next t) {e : ErrCode} (he : e ∉ es) :
    t.status.errcode ≠ e.bits := by
  rcases h t ho with h0 | ⟨e', he', hbits⟩
  · rw [h0]
    exact e.bits_ne_zero.symm
  · rw [hbits]
    exact fun heq => he (ErrCode.bits_injective heq ▸ he')

end

/-- A command ends in no code but those of its checks: behind them no computation errs. -/
theorem exec_endsIn (i : Instr) (s : State) : EndsIn (errorCodes i) (exec i s) := by
  cases i with
  | add a b c | sub a b c | mul a b c =>
    exact .checked fun _ => .withSrc fun _ _ => .withSrc fun _ _ =>
      .finish ⟨_, rfl⟩
  | div x y q r =>
    refine .checked fun hl => .withSrc fun vx hx => .withSrc fun vy hy =>
      .require (by simp [errorCodes]) fun hd => .finish ?_
    simp only [Instr.lengthsLegal, Bool.and_eq_true, decide_eq_true_iff] at hl
    obtain ⟨-, hyx⟩ := hl
    obtain ⟨st, -, hr⟩ := computeDiv_spec s.work vx vy (by rwa [holds_length hx, holds_length hy]) hd
    exact ⟨_, hr⟩
  | modmul a b p c =>
    refine .checked fun hl => .withSrc fun va ha => .withSrc fun vb hb =>
      .withSrc fun vp hp => .require (by simp [errorCodes]) fun hd => .require (by simp [errorCodes]) fun _ =>
      .finish ?_
    simp only [Instr.lengthsLegal, Bool.and_eq_true, decide_eq_true_iff] at hl
    obtain ⟨⟨-, hab⟩, hbp⟩ := hl
    obtain ⟨w, hr⟩ := computeModmul_spec s.work va vb vp (by rw [holds_length ha, holds_length hp, hab, hbp])
      (by rw [holds_length hb, holds_length hp, hbp]) hd
    exact ⟨_, hr⟩
  | modexp g e p c =>
    refine .checked fun hl => .withSrc fun vg hg => .withSrc fun ve _ =>
      .withSrc fun vp hp => .require (by simp [errorCodes]) fun hd => .require (by simp [errorCodes]) fun _ =>
      .finish ?_
    simp only [Instr.lengthsLegal, Bool.and_eq_true, decide_eq_true_iff] at hl
    obtain ⟨-, hgp⟩ := hl
    obtain ⟨w, hr⟩ := computeModexp_spec s.work vg ve vp (by rw [holds_length hg, holds_length hp, hgp]) hd
    exact ⟨_, hr⟩
  | addmod a b p c | submod a b p c =>
    exact .checked fun _ => .withSrc fun _ _ => .withSrc fun _ _ =>
      .withSrc fun _ _ => .require (by simp [errorCodes]) fun _ => .require (by simp [errorCodes]) fun _ =>
      .finish ⟨_, rfl⟩

theorem exec_errcode_ne {i : Instr} {s t : State} (h : exec i s = .next t) {e : ErrCode} (he : e ∉ errorCodes i) :
    t.status.errcode ≠ e.bits :=
  (exec_endsIn i s).errcode_ne h he

/-! ### DIVISOR and RANGE -/

/-- Settles O22: behind the first two checks the divisor check decides; ADD, SUB and MUL make none. -/
theorem invalidDivisorsEndInDivisor : Obligations.InvalidDivisorsEndInDivisor := by
  refine ⟨fun x y q r s vx vy hi hx hy hbad => ?_, fun i a b p c s va vb vp hcmd hi ha hb hp hbad => ?_,
    fun i a b p c s va vb vp hcmd hi ha hb hp htop => ?_, fun i a b c s t hcmd h => exec_errcode_ne h ?_⟩
  · exact (two_sources_ok hi hx hy).trans (require_fail (divisorOk_eq_false hy hbad))
  · have hd := divisorOk_eq_false hp hbad
    rcases hcmd with rfl | rfl <;> exact three_sources_fail hi ha hb hp hd
  · have hd := modulusOk_eq_false hp htop
    rcases hcmd with rfl | rfl <;> exact three_sources_fail hi ha hb hp hd
  · rcases hcmd with rfl | rfl | rfl <;> simp [errorCodes]

/-- Settles O23: behind a valid modulus the range check decides; ADD, SUB, MUL and DIV make none. -/
theorem unreducedOperandsEndInRange : Obligations.UnreducedOperandsEndInRange := by
  refine ⟨fun i a b p c s va vb vp hcmd hi ha hb hp htop hbad => ?_,
    fun g e p c s vg ve vp hi hg he hp hlen htop hbad => ?_, fun i a b c d s t hcmd h => exec_errcode_ne h ?_⟩
  · have hr := reduced_and_eq_false hbad
    have hm := (modulusOk_iff hp).mpr htop
    rcases hcmd with ⟨rfl, hlen⟩ | rfl | rfl
    · exact three_sources_second_fail hi ha hb hp ((divisorOk_iff hp).mpr ⟨hlen, htop⟩) hr
    · exact three_sources_second_fail hi ha hb hp hm hr
    · exact three_sources_second_fail hi ha hb hp hm hr
  · exact three_sources_second_fail (ok' := fun vg _ vp => reduced vg vp) hi hg he hp
      ((divisorOk_iff hp).mpr ⟨hlen, htop⟩) (reduced_eq_false hbad)
  · rcases hcmd with rfl | rfl | rfl | rfl <;> simp [errorCodes]

end Sys2Proof.Machine
end

section
/-! START, CLEAR and the completion step: which agent moves, what a completion step reads and shows, and what a CTRL
write does (40_control.md rules R100 to R111). -/

namespace Sys2Proof.Machine

/-! ### The step and its schedule -/

/-- Settles O5: the engine moves where it is due, else the host, and with no action pending nothing does. -/
theorem stepRunsTheCapturedCommand : Obligations.StepRunsTheCapturedCommand := by
  refine fun s => ⟨fun hp hdue => ?_, fun act rest hh h => step_host hh h, fun hp hh => ?_⟩
  · have hstep := step_of_due ((engineDue_eq_true_iff s).mpr ⟨hp, hdue⟩)
    exact ⟨fun i hd => hstep.trans (complete_command hd), fun op hd => hstep.trans (complete_reserved hd)⟩
  · have hdue : s.engineDue = false := by rw [State.engineDue, State.busy_of_phase_idle hp, Bool.false_and]
    rw [step_of_not_due hdue, hostTurn, hh]

/-- Settles O53: the run of a waiting host. -/
theorem waitingReachesCompletion : Obligations.WaitingReachesCompletion := fun _ _ hp hh =>
  ⟨_, runSteps_wait hp hh, rfl, fun hd => if_neg hd⟩

/-! ### What a completion step reads -/

/-- A completion step reads neither the live registers nor INTEN nor STATUS; the first two it keeps, and STATUS it
overwrites. -/
theorem runsAlike_liveRegisters (s : State) (k : Cmd) (ie : Bool) (st : Status) :
    RunsAlike s { s with regs := k, doneIe := ie, status := st } fun t => { t with regs := k, doneIe := ie } :=
  ⟨rfl, rfl, rfl, fun _ => rfl, fun _ _ => rfl⟩

/-- Settles O6: the completion step runs alike whatever the live registers, INTEN and STATUS hold. -/
theorem completionReadsTheSnapshotOnly : Obligations.CompletionReadsTheSnapshotOnly := by
  intro s t k ie st h
  rw [(runsAlike_liveRegisters s k ie st).complete rfl, h]
  rfl

/-! ### The words of STATUS -/

theorem statusWord_busy_zero {s : State} (hp : s.phase = .busy) (hs : s.status = Status.zero) :
    s.statusWord = 1#32 := by
  rw [State.statusWord, State.busy_of_phase_busy hp, hs]
  decide

theorem statusWord_fail (s : State) (e : ErrCode) :
    (s.fail e).statusWord = (e.bits.setWidth 32 <<< 8) ||| 0x6#32 := by
  rw [State.statusWord, State.busy_of_phase_idle rfl, State.fail_status]
  cases e <;> decide

theorem statusWord_succeed (s : State) (rs : List Region) (r : Result) :
    (s.succeed rs r).statusWord = bitWord r.flag 3 ||| 0x2#32 := by
  rw [State.statusWord, State.busy_of_phase_idle rfl, State.succeed_status]
  cases r.flag <;> decide

/-- The error codes are 1 to 7 (60_exceptions.md rule R301). -/
theorem ErrCode.bits_range (e : ErrCode) : 1 ≤ e.bits.toNat ∧ e.bits.toNat ≤ 7 := by
  cases e <;> decide

/-- Settles O27: both ends of a completion step leave their STATUS word and the engine IDLE. -/
theorem completionStatusWord : Obligations.CompletionStatusWord := by
  intro s t h
  rcases complete_next h with ⟨e, rfl⟩ | ⟨i, r, -, -, -, -, rfl⟩
  · obtain ⟨hge, hle⟩ := e.bits_range
    exact ⟨rfl, rfl, .inr ⟨e.bits, hge, hle, statusWord_fail s e, rfl⟩⟩
  · exact ⟨rfl, rfl, .inl ⟨r.flag, statusWord_succeed s _ r, rfl⟩⟩

/-! ### CTRL -/

section
variable {s : State} {v : Word32}

theorem hostRegWrite_ctrl (s : State) (v : Word32) : hostRegWrite 0x08 v s = .next (s.writeCtrl v) :=
  hostRegWrite_of_offset (r := .ctrl) rfl v s

theorem writeCtrl_busy (hp : s.phase = .busy) (v : Word32) : s.writeCtrl v = s := if_pos (State.busy_of_phase_busy hp)

/-- START, with or without CLEAR, is accepted with the live registers. -/
theorem writeCtrl_start (hp : s.phase = .idle) (h0 : v.getLsbD 0 = true) : s.writeCtrl v = s.accept s.regs := by
  rw [State.writeCtrl, State.busy_of_phase_idle hp, if_neg Bool.false_ne_true, if_pos h0]
  split_ifs <;> rfl

theorem writeCtrl_clear (hp : s.phase = .idle) (h0 : v.getLsbD 0 = false) (h1 : v.getLsbD 1 = true) :
    s.writeCtrl v = s.clear := by
  rw [State.writeCtrl, State.busy_of_phase_idle hp, if_neg Bool.false_ne_true, h0, if_neg Bool.false_ne_true, if_pos h1]

theorem writeCtrl_neither (h0 : v.getLsbD 0 = false) (h1 : v.getLsbD 1 = false) : s.writeCtrl v = s := by
  rw [State.writeCtrl, h0, h1, if_neg Bool.false_ne_true, if_neg Bool.false_ne_true, ite_self]

end

/-- Settles O38: the START is accepted with the live registers. -/
theorem startCapturesTheCommand : Obligations.StartCapturesTheCommand := by
  intro s v hp h0
  refine ⟨s.accept s.regs, ?_, rfl, statusWord_busy_zero rfl rfl, rfl, rfl, rfl, rfl, rfl, rfl, rfl, rfl, rfl⟩
  rw [hostRegWrite_ctrl, writeCtrl_start hp h0]

/-- Settles O40: without START the write is a CLEAR, or nothing. -/
theorem clearZeroesStatus : Obligations.ClearZeroesStatus := by
  intro s v h0
  rw [hostRegWrite_ctrl]
  refine ⟨fun hp h1 => ⟨s.clear, ?_, statusWord_idle_zero hp rfl, rfl, rfl⟩, fun hp => ?_, fun h1 => ?_⟩
  · rw [writeCtrl_clear hp h0 h1]
  · rw [writeCtrl_busy hp]
  · rw [writeCtrl_neither h0 h1]

/-- Settles O41: both writes are the same accepted START while IDLE. -/
theorem clearAndStartEqualsStart : Obligations.ClearAndStartEqualsStart := by
  refine fun s => ⟨fun hp => ?_, fun hp => ?_⟩
  · rw [hostRegWrite_ctrl, hostRegWrite_ctrl, writeCtrl_start hp (by decide), writeCtrl_start hp (by decide)]
  · rw [hostRegWrite_ctrl, writeCtrl_busy hp]

/-- Settles O52: the START captures the command registers of reset, whose OP is reserved. -/
theorem startAfterResetIsBadOpcode : Obligations.StartAfterResetIsBadOpcode := by
  intro cfg
  refine ⟨(((State.resetWith cfg).advance []).accept Cmd.zero).fail .badOpcode, ?_, statusWord_fail _ _, rfl⟩
  rw [runSteps_succ (step_start rfl rfl), runSteps_one,
    step_of_due ((engineDue_eq_true_iff _).mpr ⟨rfl, .inl rfl⟩)]
  exact complete_reserved (op := 0) rfl

end Sys2Proof.Machine
end

section
/-! ADD and SUB on written operands: each completes with what the ripple of its operands answers, and a SUB undoes an ADD
(42_add_sub.md rules R170 to R174). -/

namespace Sys2Proof.Machine

/-! ### The completion step -/

section
variable {s : State} {a b : Src} {c : BitVec 16} {va vb : BigNat}

/-- The operands of a well-formed ADD have one length (30_encoding.md rule R85). -/
theorem add_operands_length (hi : (Instr.add a b c).wellFormed s.cfg = true) (ha : s.holds a va) (hb : s.holds b vb) :
    va.length = vb.length := by
  simp only [Instr.wellFormed, Instr.lengthsLegal, Bool.and_eq_true, decide_eq_true_iff] at hi
  obtain ⟨⟨-, hab⟩, -⟩ := hi
  rw [holds_length ha, holds_length hb, hab]

/-- The operands of a well-formed SUB have one length: its rows of rules R85 and R104 are those of ADD. -/
theorem sub_operands_length (hi : (Instr.sub a b c).wellFormed s.cfg = true) (ha : s.holds a va) (hb : s.holds b vb) :
    va.length = vb.length :=
  add_operands_length (c := c) hi ha hb

/-- A well-formed ADD on written operands completes with the ripple's sum and carry (rule R170). -/
theorem exec_add_of_holds (hi : (Instr.add a b c).wellFormed s.cfg = true) (ha : s.holds a va) (hb : s.holds b vb) :
    exec (.add a b c) s = .next (s.succeed [resultAt c a.len.toNat]
      { values := [val (vadd va vb).1], flag := (vadd va vb).2, work := s.work }) :=
  two_sources_ok hi ha hb

/-- A well-formed SUB on written operands completes with the ripple's difference and borrow (rule R172). -/
theorem exec_sub_of_holds (hi : (Instr.sub a b c).wellFormed s.cfg = true) (ha : s.holds a va) (hb : s.holds b vb) :
    exec (.sub a b c) s = .next (s.succeed [resultAt c a.len.toNat]
      { values := [val (vsub va vb).1], flag := (vsub va vb).2, work := s.work }) :=
  two_sources_ok hi ha hb

end

/-- Settles O8: sum and carry of the ripple are together exact. -/
theorem addResultIsExact : Obligations.AddResultIsExact := by
  intro a b c s va vb hi ha hb
  have hlen := add_operands_length hi ha hb
  refine ⟨s.work, val (vadd va vb).1, (vadd va vb).2, exec_add_of_holds hi ha hb, ?_, ?_⟩
  · rw [← holds_length ha, ← vadd_length va vb hlen]
    exact val_lt _
  · rw [← holds_length ha, mul_comm]
    exact vadd_spec va vb hlen

/-- Settles O9: the difference of the ripple is exact up to its borrow. -/
theorem subResultIsExact : Obligations.SubResultIsExact := by
  intro a b c s va vb hi ha hb
  have hlen := sub_operands_length hi ha hb
  refine ⟨s.work, val (vsub va vb).1, (vsub va vb).2, exec_sub_of_holds hi ha hb, ?_, ?_⟩
  · rw [← holds_length ha, ← vsub_length va vb hlen]
    exact val_lt _
  · have hspec : (val (vsub va vb).1 : Int) + val vb = val va + radix ^ va.length * (vsub va vb).2.toNat :=
      mod_cast vsub_spec va vb hlen
    rw [← holds_length ha]
    linarith

/-! ### SUB undoes ADD -/

/-- A single result region reads as the words whose value was stored in it. -/
theorem holds_succeed (s : State) (c len : BitVec 16) {ws : BigNat} (hlen : ws.length = len.toNat) (f : Bool)
    (w : Work) : (s.succeed [resultAt c len.toNat] { values := [val ws], flag := f, work := w }).holds
      { addr := c, len := len } ws := by
  obtain ⟨us, hread, hlus, hval⟩ := Mem.readWords_writeValue s.mem c.toNat len.toNat (val ws)
  have heq : us = ws := by
    refine eq_of_val_eq (hlus.trans hlen.symm) ?_
    rw [hval, ← hlen, Nat.mod_eq_of_lt (val_lt ws)]
  exact heq ▸ hread

/-- Subtracting b from the sum of a and b borrows exactly where the sum carried. -/
theorem vsub_vadd_borrow (a b : BigNat) (h : a.length = b.length) : (vsub (vadd a b).1 b).2 = (vadd a b).2 := by
  have hadd := vadd_spec a b h
  have ha := val_lt a
  rw [vsub_borrow _ b ((vadd_length a b h).trans h)]
  cases hcarry : (vadd a b).2 with
  | false =>
    rw [hcarry, Bool.toNat_false, mul_zero] at hadd
    exact decide_eq_false (by omega)
  | true =>
    rw [hcarry, Bool.toNat_true, mul_one] at hadd
    exact decide_eq_true (by omega)

/-- Subtracting b from the sum of a and b gives a again, with the sum's carry as the borrow (rule R174). -/
theorem vsub_vadd (a b : BigNat) (h : a.length = b.length) : vsub (vadd a b).1 b = (a, (vadd a b).2) := by
  have hsum : (vadd a b).1.length = a.length := vadd_length a b h
  have hlen := hsum.trans h
  have hval : val (vsub (vadd a b).1 b).1 = val a := by
    have hadd := vadd_spec a b h
    have hsub := vsub_spec (vadd a b).1 b hlen
    rw [vsub_vadd_borrow a b h, hsum] at hsub
    omega
  exact Prod.ext (eq_of_val_eq ((vsub_length _ b hlen).trans hsum) hval) (vsub_vadd_borrow a b h)

/-- Settles O17: the SUB reads the sum's words back and undoes the ADD on them. -/
theorem addThenSubRestores : Obligations.AddThenSubRestores := by
  intro a b b' c d s t va vb hadd ha hb ht hsub hb'
  have hlen := add_operands_length hadd ha hb
  have hsum : (vadd va vb).1.length = a.len.toNat := (vadd_length va vb hlen).trans (holds_length ha)
  cases (exec_add_of_holds hadd ha hb).symm.trans ht
  have hc := holds_succeed s c a.len hsum (vadd va vb).2 s.work
  have hexec := exec_sub_of_holds (s := s.succeed _ _) hsub hc hb'
  rw [vsub_vadd va vb hlen] at hexec
  exact ⟨_, hexec, holds_succeed _ d a.len (holds_length ha) _ _, rfl, rfl⟩

end Sys2Proof.Machine
end

section
/-! MUL on written operands completes with the exact product, which fits its LA + LB words (43_multiply.md rules R190
and R192). -/

namespace Sys2Proof.Machine

/-- A well-formed MUL on written operands completes with the exact product (rule R190). -/
theorem exec_mul_of_holds {s : State} {a b : Src} {c : BitVec 16} {va vb : BigNat}
    (hi : (Instr.mul a b c).wellFormed s.cfg = true) (ha : s.holds a va) (hb : s.holds b vb) :
    exec (.mul a b c) s = .next (s.succeed [resultAt c (a.len.toNat + b.len.toNat)]
      { values := [val va * val vb], flag := false, work := s.work }) := by
  have hexec : exec (.mul a b c) s = finish (.mul a b c) s (computeMul s.work va vb) := two_sources_ok hi ha hb
  rw [hexec, computeMul_spec]
  rfl

/-- The product fits the words of both factors together: it is the value of that many words (rule R190). -/
theorem val_mul_val_lt (a b : BigNat) : val a * val b < radix ^ (a.length + b.length) := by
  rw [← mulFull_val, ← mulFull_length]
  exact val_lt _

/-- Settles O10: the schoolbook product is exact and has LA + LB words. -/
theorem mulResultIsExact : Obligations.MulResultIsExact := by
  intro a b c s va vb hi ha hb
  refine ⟨⟨s.work, exec_mul_of_holds hi ha hb⟩, ?_⟩
  rw [← holds_length ha, ← holds_length hb]
  exact val_mul_val_lt va vb

end Sys2Proof.Machine
end

section
/-! The digits of a division: step 1 leaves what the first quotient position needs on entry, every position finds the true
digit and keeps the entry condition (44_divide.md rules R202 to R209). -/

namespace Sys2Proof.Machine

/-! ### A divisor that passes its check -/

/-- The divisor condition of rule R105 on the divisor's own words. -/
theorem divisorOk_iff_words (y : BigNat) : divisorOk y = true ↔ 1 < y.length ∧ wordAt y (y.length - 1) ≠ 0 := by
  rw [divisorOk, Bool.and_eq_true, decide_eq_true_iff, decide_eq_true_iff]

theorem val_pos_of_divisorOk {y : BigNat} (hd : divisorOk y = true) : 0 < val y := by
  obtain ⟨-, htop⟩ := (divisorOk_iff_words y).mp hd
  refine Nat.pos_of_ne_zero fun h0 => htop (BitVec.eq_of_toNat_eq ?_)
  rw [wordAt_toNat, h0, Nat.zero_div]
  rfl

section
variable {x y : BigNat} (hxy : y.length ≤ x.length) (hd : divisorOk y = true)
include hxy hd

/-- The quotient fits n - t + 1 words: it is the value of that many words (rules R201, R210). -/
theorem div_lt_radix_pow : val x / val y < radix ^ (x.length - y.length + 1) := by
  obtain ⟨st, -, -, hlen, -, hq, -⟩ := divide_spec x y hxy hd
  rw [← hq, ← hlen]
  exact val_lt st.q

/-- The top quotient digit is below the radix, so it fits the cap of step 1 (rules R202, R211). -/
theorem topQuotient_lt_radix : val x / (val y * radix ^ (x.length - y.length)) < radix := by
  rw [← Nat.div_div_eq_div_mul, Nat.div_lt_iff_lt_mul (by positivity), ← pow_succ']
  exact div_lt_radix_pow hxy hd

/-! ### Step 1 -/

/-- Rule R202: step 1 answers within the cap and leaves the remainder of x by y · b^(n - t). -/
theorem topDigit_spec {st : DivState} (hx : st.x = x) :
    ∃ st', topDigit y x.length st = .ok st' ∧ st'.x.length = x.length ∧
      val st'.x = val x % (val y * radix ^ (x.length - y.length)) := by
  subst hx
  have hys : val (shiftUp st.x.length y (st.x.length - y.length)) = val y * radix ^ (st.x.length - y.length) :=
    shiftUp_val_exact _ _ _ (Nat.add_sub_cancel' hxy).le
  have hpos : 0 < val y * radix ^ (st.x.length - y.length) := Nat.mul_pos (val_pos_of_divisorOk hd) (by positivity)
  have hcap : val st.x / (val y * radix ^ (st.x.length - y.length)) ≤ Config.corrCap :=
    Nat.le_of_lt_succ (topQuotient_lt_radix hxy hd)
  obtain ⟨x', hloop, hlen, hval⟩ := topDigitLoop_spec (shiftUp st.x.length y (st.x.length - y.length)) Config.corrCap 0
    st.x (shiftUp_length _ _ _).symm (hys ▸ hpos) (hys ▸ hcap)
  exact ⟨_, topDigit_eq hloop, hlen.trans (shiftUp_length _ _ _), hys ▸ hval⟩

end

/-! ### The entry condition -/

theorem DigitEntry.divisor_pos {x y : BigNat} {j : Nat} (h : DigitEntry x y j) (k : Nat) : 0 < val y * radix ^ k :=
  Nat.mul_pos h.y_pos (by positivity)

/-- Rule R203: the steps of a position lead to the entry condition of the position below. -/
theorem DigitEntry.next {y : BigNat} {j : Nat} {st st' : DivState} (h : DigitEntry st.x y (j + 1))
    (hdigit : divDigit y st.x.length (j + 1) st = .ok st') : DigitEntry st'.x y j := by
  obtain ⟨st₁, hok, hlen, hval, -⟩ := divDigit_spec st h
  cases hok.symm.trans hdigit
  have hfits := h.fits
  refine ⟨h.two, h.top, by omega, ?_⟩
  rw [hval]
  exact Nat.mod_lt _ (h.divisor_pos (j + 1))

/-- Settles O57: step 1 leaves x below its subtrahend, and a position below its own, which the next one needs. -/
theorem divisionEntryIsEstablishedAndKept : Obligations.DivisionEntryIsEstablishedAndKept := by
  refine ⟨fun x y st hd hxy hx => ?_, fun y j st st' h hdigit => h.next hdigit⟩
  obtain ⟨st', hok, hlen, hval⟩ := topDigit_spec hxy hd hx
  obtain ⟨htwo, htop⟩ := (divisorOk_iff_words y).mp hd
  have hlt : val st'.x < val y * radix ^ (x.length - y.length) := by
    rw [hval]
    exact Nat.mod_lt _ (Nat.mul_pos (val_pos_of_divisorOk hd) (by positivity))
  refine ⟨st', hok, hlen, hlt, fun hlonger => ⟨htwo, htop, by omega, ?_⟩⟩
  rwa [Nat.sub_add_cancel (Nat.sub_pos_of_lt hlonger)]

/-! ### The digit -/

/-- A trial quotient that is exact or one too large misses `v` by nothing or by one divisor. -/
theorem mod_add_trial_mul (v d : Nat) {q : Nat} (hle : v / d ≤ q) (hlt : q ≤ v / d + 1) :
    v % d + q * d = v ∨ v % d + q * d = v + d := by
  have hexact := Nat.mod_add_div' v d
  rcases Nat.le_or_eq_of_le_succ hlt with hq | rfl
  · left
    rwa [le_antisymm hq hle]
  · right
    rw [Nat.succ_mul, ← Nat.add_assoc, hexact]

/-- Settles O56: the trial digit is not below the true one, its correction at most one above, and multiplying back writes
the true one. -/
theorem divisionDigitIsExact : Obligations.DivisionDigitIsExact := by
  intro y j st h
  obtain ⟨qh, htrial, hqh⟩ := h.trialDigit_spec
  obtain ⟨qc, hcorrect, hqc, hqc1⟩ := h.correctDigit_spec qh hqh
  obtain ⟨-, hval, hq⟩ := multiplyBack_spec h qc st rfl hqc hqc1
  refine ⟨Nat.le_pred_of_lt h.digit_lt, qh, qc, htrial, hqh, Nat.le_pred_of_lt qh.isLt, hcorrect, hqc, hqc1, _, rfl,
    ?_, hq, ?_, hval, ?_⟩
  · rw [divDigit, andThen_ok htrial, andThen_ok hcorrect]
  · rw [hval]
    exact mod_add_trial_mul _ _ hqc hqc1
  · rw [hval]
    exact Nat.mod_lt _ (h.divisor_pos j)

end Sys2Proof.Machine
end

section
/-! DIV on written operands completes with the exact quotient and remainder, the remainder stored last; and no command
ends in an error of the division (44_divide.md rules R200, R210, R211). -/

namespace Sys2Proof.Machine

/-! ### The completion step -/

section
variable {s : State} {x y : Src} {q r : BitVec 16} {vx vy : BigNat}

/-- The divisor of a well-formed DIV is not longer than its dividend (30_encoding.md rule R85). -/
theorem div_operands_length (hi : (Instr.div x y q r).wellFormed s.cfg = true) (hx : s.holds x vx) (hy : s.holds y vy) :
    vy.length ≤ vx.length := by
  simp only [Instr.wellFormed, Instr.lengthsLegal, Bool.and_eq_true, decide_eq_true_iff] at hi
  obtain ⟨⟨-, hyx⟩, -⟩ := hi
  rwa [holds_length hx, holds_length hy]

/-- A well-formed DIV on written operands and a valid divisor completes with the exact quotient and remainder (rules R200,
R210). -/
theorem exec_div_of_holds (hi : (Instr.div x y q r).wellFormed s.cfg = true) (hx : s.holds x vx) (hy : s.holds y vy)
    (hd : divisorOk vy = true) :
    ∃ w, exec (.div x y q r) s = .next (s.succeed
      [resultAt q (x.len.toNat - y.len.toNat + 1), resultAt r y.len.toNat]
      { values := [val vx / val vy, val vx % val vy], flag := false, work := w }) := by
  obtain ⟨st, -, hcompute⟩ := computeDiv_spec s.work vx vy (div_operands_length hi hx hy) hd
  exact ⟨_, (two_sources_ok hi hx hy).trans ((require_ok hd).trans (finish_ok hcompute))⟩

end

/-- Settles O11: the division's values are the exact ones, the quotient in n - t + 1 words. -/
theorem divResultIsExact : Obligations.DivResultIsExact := by
  intro x y q r s vx vy hi hx hy hlen htop
  have hd : divisorOk vy = true := (divisorOk_iff hy).mpr ⟨hlen, htop⟩
  have hmod : val vx % val vy < val vy := Nat.mod_lt _ (val_pos_of_divisorOk hd)
  obtain ⟨w, hexec⟩ := exec_div_of_holds hi hx hy hd
  refine ⟨w, _, _, hexec, rfl, rfl, (Nat.div_add_mod' _ _).symm, hmod, ?_, ?_⟩
  · rw [← holds_length hx, ← holds_length hy]
    exact div_lt_radix_pow (div_operands_length hi hx hy) hd
  · rw [← holds_length hy]
    exact hmod.trans (val_lt vy)

/-! ### Overlapping result regions -/

theorem Mem.read_writeValue_add (m : Mem) (a n v : Nat) {k : Nat} (hk : k < n) :
    (m.writeValue a n v).read (a + k) = some (wordOf v k) := by
  rw [Mem.read_writeValue, if_pos ⟨Nat.le_add_right a k, Nat.add_lt_add_left hk a⟩, Nat.add_sub_cancel_left]

theorem Mem.read_writeValue_outside (m : Mem) (a n v : Nat) {b : Nat} (hb : b < a ∨ a + n ≤ b) :
    (m.writeValue a n v).read b = m.read b := by
  rw [Mem.read_writeValue, if_neg]
  exact fun hin => hb.elim hin.1.not_gt hin.2.not_ge

/-- A command that ends without an error was well-formed. -/
theorem wellFormed_of_exec_next {i : Instr} {s t : State} (h : exec i s = .next t) (ht : t.status.err = false) :
    i.wellFormed s.cfg = true := by
  obtain ⟨k, hk⟩ := exec_eq_checked i s
  obtain ⟨hlen, hbounds, -⟩ := checked_next (hk ▸ h) ht
  rw [Instr.wellFormed, ← lengthsOk_eq, ← boundsOk_eq, hlen, hbounds, Bool.and_self]

/-- A DIV that ends without an error passed the divisor check on the divisor it read. -/
theorem divisorOk_of_exec_next {x y : Src} {q r : BitVec 16} {s t : State} {vy : BigNat} (hy : s.holds y vy)
    (h : exec (.div x y q r) s = .next t) (ht : t.status.err = false) : divisorOk vy = true := by
  obtain ⟨_, hcomputed, -⟩ := exec_computed h ht
  cases hcomputed with
  | div _ hy' hd _ =>
    cases hy.symm.trans hy'
    exact hd

/-- Settles O19: the remainder is stored after the quotient. -/
theorem divRemainderWinsWhereRegionsOverlap : Obligations.DivRemainderWinsWhereRegionsOverlap := by
  intro x y q r s t vx vy hx hy h ht
  obtain ⟨w, hexec⟩ := exec_div_of_holds (wellFormed_of_exec_next h ht) hx hy (divisorOk_of_exec_next hy h ht)
  cases hexec.symm.trans h
  refine ⟨fun k hk => Mem.read_writeValue_add _ _ _ _ hk, fun k hk hout => ?_⟩
  exact (Mem.read_writeValue_outside _ _ _ _ hout).trans (Mem.read_writeValue_add _ _ _ _ hk)

/-! ### The errors of the division -/

/-- A completion step shows no code that is neither BAD_OPCODE nor one of its command's checks. -/
theorem complete_errcode_ne {s t : State} {e : ErrCode} (h : complete s = .next t) (hop : e ≠ .badOpcode)
    (hcmd : ∀ i, e ∉ errorCodes i) : t.status.errcode ≠ e.bits := by
  cases hd : decode s.snap with
  | reservedOp op =>
    rw [complete_reserved hd] at h
    exact (EndsIn.fail (.head [])).errcode_ne h fun hmem => hop (List.mem_singleton.mp hmem)
  | command i =>
    rw [complete_command hd] at h
    exact exec_errcode_ne h (hcmd i)

theorem divZero_not_mem_errorCodes (i : Instr) : ErrCode.divZero ∉ errorCodes i := by
  cases i <;> simp [errorCodes]

theorem noConverge_not_mem_errorCodes (i : Instr) : ErrCode.noConverge ∉ errorCodes i := by
  cases i <;> simp [errorCodes]

/-- Settles O29: behind the checks of a command every division answers. -/
theorem divisionErrorsAreUnreachable : Obligations.DivisionErrorsAreUnreachable := fun _ _ h =>
  ⟨complete_errcode_ne h nofun divZero_not_mem_errorCodes, complete_errcode_ne h nofun noConverge_not_mem_errorCodes⟩

end Sys2Proof.Machine
end

section
/-! ADDMOD, SUBMOD and MODMUL on written, reduced operands complete with the residue modulo p; and whatever one of them
stored lies below the modulus (45_modular.md rules R230 to R236). -/

namespace Sys2Proof.Machine

/-! ### The operands -/

theorem reduced_and_iff {a b p : BigNat} : (reduced a p && reduced b p) = true ↔ val a < val p ∧ val b < val p := by
  rw [Bool.and_eq_true, reduced, reduced, decide_eq_true_iff, decide_eq_true_iff]

section
variable {s : State} {a b p : Src} {c : BitVec 16} {va vb vp : BigNat}

/-- The operands of a well-formed ADDMOD are as long as its modulus (30_encoding.md rule R85). The rows of SUBMOD and
MODMUL are the same, so the lemma serves all three. -/
theorem addmod_operands_length (hi : (Instr.addmod a b p c).wellFormed s.cfg = true) (ha : s.holds a va)
    (hb : s.holds b vb) (hp : s.holds p vp) : va.length = vp.length ∧ vb.length = vp.length := by
  simp only [Instr.wellFormed, Instr.lengthsLegal, Bool.and_eq_true, decide_eq_true_iff] at hi
  obtain ⟨⟨⟨-, hab⟩, hbp⟩, -⟩ := hi
  rw [holds_length ha, holds_length hb, holds_length hp, hab, hbp]
  exact ⟨rfl, rfl⟩

/-- A residue lies below the modulus, so it fits the words of a result region as long as the modulus. -/
theorem residue_lt (hi : (Instr.addmod a b p c).wellFormed s.cfg = true) (ha : s.holds a va) (hb : s.holds b vb)
    (hp : s.holds p vp) (hap : val va < val vp) (n : Nat) :
    n % val vp < val vp ∧ n % val vp < radix ^ a.len.toNat := by
  obtain ⟨hla, -⟩ := addmod_operands_length hi ha hb hp
  have hlt : n % val vp < val vp := Nat.mod_lt _ (Nat.zero_lt_of_lt hap)
  rw [← holds_length ha, hla]
  exact ⟨hlt, hlt.trans (val_lt vp)⟩

/-! ### The completion step -/

/-- A well-formed ADDMOD on written, reduced operands completes with the modular sum (rules R230, R231). -/
theorem exec_addmod_of_holds (hi : (Instr.addmod a b p c).wellFormed s.cfg = true) (ha : s.holds a va)
    (hb : s.holds b vb) (hp : s.holds p vp) (hm : modulusOk vp = true) (hap : val va < val vp)
    (hbp : val vb < val vp) :
    exec (.addmod a b p c) s = .next (s.succeed [resultAt c a.len.toNat]
      { values := [(val va + val vb) % val vp], flag := false, work := s.work }) := by
  obtain ⟨hla, hlb⟩ := addmod_operands_length hi ha hb hp
  exact (three_sources_ok hi ha hb hp).trans <| (require_ok hm).trans <|
    (require_ok (reduced_and_iff.mpr ⟨hap, hbp⟩)).trans <| finish_ok (computeAddmod_spec _ _ _ _ hla hlb hap hbp)

/-- A well-formed SUBMOD on written, reduced operands completes with the modular difference, computed over the naturals
(rules R232, R233). -/
theorem exec_submod_of_holds (hi : (Instr.submod a b p c).wellFormed s.cfg = true) (ha : s.holds a va)
    (hb : s.holds b vb) (hp : s.holds p vp) (hm : modulusOk vp = true) (hap : val va < val vp)
    (hbp : val vb < val vp) :
    exec (.submod a b p c) s = .next (s.succeed [resultAt c a.len.toNat]
      { values := [(val va + val vp - val vb) % val vp], flag := false, work := s.work }) := by
  obtain ⟨hla, hlb⟩ := addmod_operands_length (c := c) hi ha hb hp
  exact (three_sources_ok hi ha hb hp).trans <| (require_ok hm).trans <|
    (require_ok (reduced_and_iff.mpr ⟨hap, hbp⟩)).trans <| finish_ok (computeSubmod_spec _ _ _ _ hla hlb hap hbp)

/-- A well-formed MODMUL on written, reduced operands and a valid divisor completes with the modular product (rules
R234, R235). -/
theorem exec_modmul_of_holds (hi : (Instr.modmul a b p c).wellFormed s.cfg = true) (ha : s.holds a va)
    (hb : s.holds b vb) (hp : s.holds p vp) (hd : divisorOk vp = true) (hap : val va < val vp)
    (hbp : val vb < val vp) :
    ∃ w, exec (.modmul a b p c) s = .next (s.succeed [resultAt c a.len.toNat]
      { values := [val va * val vb % val vp], flag := false, work := w }) := by
  obtain ⟨hla, hlb⟩ := addmod_operands_length (c := c) hi ha hb hp
  obtain ⟨w, hcompute⟩ := computeModmul_spec s.work va vb vp hla hlb hd
  exact ⟨w, (three_sources_ok hi ha hb hp).trans <| (require_ok hd).trans <|
    (require_ok (reduced_and_iff.mpr ⟨hap, hbp⟩)).trans <| finish_ok hcompute⟩

end

/-- Settles O12: one subtraction of p reduces the sum of two reduced operands. -/
theorem addmodResultIsTheModularSum : Obligations.AddmodResultIsTheModularSum := by
  intro a b p c s va vb vp hi ha hb hp htop hap hbp
  exact ⟨s.work, _, exec_addmod_of_holds hi ha hb hp ((modulusOk_iff hp).mpr htop) hap hbp, rfl,
    residue_lt hi ha hb hp hap _⟩

/-- Adding p first takes a residue of a difference from the integers to the naturals. -/
theorem cast_add_sub_mod {a b p : Nat} (h : b ≤ p) : ((a + p - b) % p : Nat) = ((a : Int) - b) % p := by
  rw [Int.natCast_mod, Nat.cast_sub (h.trans (Nat.le_add_left p a)), Nat.cast_add, add_sub_right_comm,
    Int.add_emod_right]

/-- Settles O13: one addition of p makes up for the borrow of two reduced operands. -/
theorem submodResultIsTheModularDifference : Obligations.SubmodResultIsTheModularDifference := by
  intro a b p c s va vb vp hi ha hb hp htop hap hbp
  exact ⟨s.work, _, exec_submod_of_holds hi ha hb hp ((modulusOk_iff hp).mpr htop) hap hbp,
    cast_add_sub_mod hbp.le, residue_lt (c := c) hi ha hb hp hap _⟩

/-- Settles O14: the division leaves the residue of the full product. -/
theorem modmulResultIsTheModularProduct : Obligations.ModmulResultIsTheModularProduct := by
  intro a b p c s va vb vp hi ha hb hp hlen htop hap hbp
  obtain ⟨w, hexec⟩ := exec_modmul_of_holds hi ha hb hp ((divisorOk_iff hp).mpr ⟨hlen, htop⟩) hap hbp
  obtain ⟨-, hfits⟩ := residue_lt (c := c) hi ha hb hp hap (val va * val vb)
  exact ⟨w, _, hexec, rfl, hfits⟩

/-! ### Reduced results -/

/-- A modular add, subtract or multiply that ends without an error passed its checks, so its modulus is above 0 and it
stored a residue. -/
theorem exec_modular_stores_residue {i : Instr} {a b p : Src} {c : BitVec 16} {s t : State} {vp : BigNat}
    (hcmd : i = .addmod a b p c ∨ i = .submod a b p c ∨ i = .modmul a b p c) (hp : s.holds p vp)
    (h : exec i s = .next t) (ht : t.status.err = false) :
    0 < val vp ∧ ∃ n w, exec i s = .next (s.succeed [resultAt c a.len.toNat]
      { values := [n % val vp], flag := false, work := w }) := by
  have hi := wellFormed_of_exec_next h ht
  obtain ⟨_, hcomputed, -⟩ := exec_computed h ht
  rcases hcmd with rfl | rfl | rfl
  · cases hcomputed with
    | addmod ha hb hp' hm hr _ =>
      cases hp.symm.trans hp'
      obtain ⟨hap, hbp⟩ := reduced_and_iff.mp hr
      exact ⟨Nat.zero_lt_of_lt hap, _, _, exec_addmod_of_holds hi ha hb hp hm hap hbp⟩
  · cases hcomputed with
    | submod ha hb hp' hm hr _ =>
      cases hp.symm.trans hp'
      obtain ⟨hap, hbp⟩ := reduced_and_iff.mp hr
      exact ⟨Nat.zero_lt_of_lt hap, _, _, exec_submod_of_holds hi ha hb hp hm hap hbp⟩
  · cases hcomputed with
    | modmul ha hb hp' hd hr _ =>
      cases hp.symm.trans hp'
      obtain ⟨hap, hbp⟩ := reduced_and_iff.mp hr
      exact ⟨Nat.zero_lt_of_lt hap, _, exec_modmul_of_holds hi ha hb hp hd hap hbp⟩

/-- Settles O18: the result region reads as the stored residue, which the words of the region can only lower. -/
theorem modularResultsAreReduced : Obligations.ModularResultsAreReduced := by
  intro i a b p c s t vp hcmd hp h ht
  obtain ⟨hpos, n, w, hexec⟩ := exec_modular_stores_residue hcmd hp h ht
  cases hexec.symm.trans h
  obtain ⟨vc, hread, -, hval⟩ := Mem.readWords_writeValue s.mem c.toNat a.len.toNat (n % val vp)
  refine ⟨vc, hread, ?_⟩
  rw [hval]
  exact (Nat.mod_le _ _).trans_lt (Nat.mod_lt _ hpos)

end Sys2Proof.Machine
end

section
/-! MODEXP on written operands and a reduced base completes with the power modulo p, by one iteration per bit of the
exponent; an all-zero exponent gives 1 (46_modexp.md rules R250 to R254). -/

namespace Sys2Proof.Machine

/-! ### The completion step -/

section
variable {s : State} {g e p : Src} {c : BitVec 16} {vg ve vp : BigNat}

/-- The base of a well-formed MODEXP is as long as its modulus (30_encoding.md rule R85). -/
theorem modexp_operands_length (hi : (Instr.modexp g e p c).wellFormed s.cfg = true) (hg : s.holds g vg)
    (hp : s.holds p vp) : vg.length = vp.length := by
  simp only [Instr.wellFormed, Instr.lengthsLegal, Bool.and_eq_true, decide_eq_true_iff] at hi
  obtain ⟨⟨-, hgp⟩, -⟩ := hi
  rw [holds_length hg, holds_length hp, hgp]

/-- A well-formed MODEXP on written operands, a valid divisor and a reduced base completes with the power modulo p
(rules R250, R252). -/
theorem exec_modexp_of_holds (hi : (Instr.modexp g e p c).wellFormed s.cfg = true) (hg : s.holds g vg)
    (he : s.holds e ve) (hp : s.holds p vp) (hd : divisorOk vp = true) (hgp : val vg < val vp) :
    ∃ w, exec (.modexp g e p c) s = .next (s.succeed [resultAt c p.len.toNat]
      { values := [val vg ^ val ve % val vp], flag := false, work := w }) := by
  obtain ⟨w, hcompute⟩ := computeModexp_spec s.work vg ve vp (modexp_operands_length hi hg hp) hd
  exact ⟨w, (three_sources_ok hi hg he hp).trans <| (require_ok hd).trans <|
    (require_ok (decide_eq_true hgp)).trans <| finish_ok hcompute⟩

end

/-! ### The bit loop -/

/-- The exponent's part above bit i, shifted up by bit i, is its part from bit i on (rule R252). -/
theorem two_mul_div_two_pow_add_bitAt (e : BigNat) (i : Nat) :
    2 * (val e / 2 ^ (i + 1)) + (bitAt e i).toNat = val e / 2 ^ i := by
  rw [bitAt_spec, Nat.toNat_testBit, pow_succ, ← Nat.div_div_eq_div_mul, Nat.div_add_mod]

/-- Settles O15: the loop over the exponent's bits computes the power, and the iteration for a bit appends that bit to
the exponent reached so far. -/
theorem modexpResultIsThePower : Obligations.ModexpResultIsThePower := by
  refine ⟨fun g e p c s vg ve vp hi hg he hp hlen htop hgp => ?_, fun g e p i st hg hst hlen htop hv => ?_⟩
  · have hd : divisorOk vp = true := (divisorOk_iff hp).mpr ⟨hlen, htop⟩
    obtain ⟨w, hexec⟩ := exec_modexp_of_holds hi hg he hp hd hgp
    refine ⟨w, _, hexec, rfl, ?_⟩
    rw [← holds_length hp]
    exact (Nat.mod_lt _ (val_pos_of_divisorOk hd)).trans (val_lt vp)
  · have hiter := expBit_spec g e p i _ st hg hst ((divisorOk_iff_words p).mpr ⟨hlen, htop⟩) hv
    rwa [two_mul_div_two_pow_add_bitAt] at hiter

/-! ### The zero exponent -/

/-- A divisor of more than one word with a non-zero top word is above 1, so 1 is a residue. -/
theorem one_lt_val_of_divisorOk {y : BigNat} (hd : divisorOk y = true) : 1 < val y := by
  obtain ⟨hlen, htop⟩ := (divisorOk_iff_words y).mp hd
  by_contra hle
  have hlt : val y < radix ^ (y.length - 1) :=
    (Nat.le_of_not_gt hle).trans_lt (Nat.one_lt_pow (Nat.sub_ne_zero_of_lt hlen) (by decide))
  refine htop (BitVec.eq_of_toNat_eq ?_)
  rw [wordAt_toNat, Nat.div_eq_of_lt hlt]
  rfl

theorem val_eq_zero_of_forall {ws : BigNat} (h : ∀ w ∈ ws, w = 0) : val ws = 0 := by
  rw [List.eq_replicate_of_mem h]
  exact val_zeroWords ws.length

theorem wordOf_one_of_pos {k : Nat} (hk : 1 ≤ k) : wordOf 1 k = 0 := by
  rw [wordOf, Nat.div_eq_of_lt (Nat.one_lt_pow (Nat.one_le_iff_ne_zero.mp hk) (by decide))]
  rfl

/-- Settles O16: the power with exponent 0 is 1, which the modulus leaves as it is; its words are 1 and zeros. -/
theorem modexpZeroExponentGivesOne : Obligations.ModexpZeroExponentGivesOne := by
  intro g e p c s vg ve vp hi hg he hp hlen htop hgp hzero
  have hd : divisorOk vp = true := (divisorOk_iff hp).mpr ⟨hlen, htop⟩
  have hpow : val vg ^ val ve % val vp = 1 := by
    rw [val_eq_zero_of_forall hzero, pow_zero, Nat.mod_eq_of_lt (one_lt_val_of_divisorOk hd)]
  obtain ⟨w, hexec⟩ := exec_modexp_of_holds hi hg he hp hd hgp
  rw [hpow] at hexec
  have hread {k : Nat} (hk : k < p.len.toNat) := Mem.read_writeValue_add s.mem c.toNat p.len.toNat 1 hk
  refine ⟨_, hexec, rfl, hread (Nat.zero_lt_of_lt hlen), fun k hk hkn => ?_⟩
  rw [← wordOf_one_of_pos hk]
  exact hread hkn

end Sys2Proof.Machine
end

section
/-! Error entry (60_exceptions.md rules R301, R305, R306): a completion step ends with ERR in the error entry of one code,
which changes STATUS, the phase and the model's countdown alone. -/

namespace Sys2Proof.Machine

/-- A completion step that ends with ERR is an error entry: the successful end clears ERR. -/
theorem complete_next_of_err {s t : State} (h : complete s = .next t) (ht : t.status.err = true) :
    ∃ e : ErrCode, t = s.fail e := by
  rcases complete_next h with hfail | ⟨i, r, -, -, -, -, rfl⟩
  · exact hfail
  · rw [State.succeed_status, Status.ofSuccess_err] at ht
    cases ht

theorem irq_fail (s : State) (e : ErrCode) : (s.fail e).irq = s.doneIe := by
  rw [State.irq, State.fail_status, Status.ofError_done, State.fail_doneIe, Bool.true_and]

/-- Settles O25: of the two ends of a completion step only the error entry sets ERR, and it keeps every field the
statement names but STATUS and the phase. -/
theorem errorEntrySetsStatusAlone : Obligations.ErrorEntrySetsStatusAlone :=
  ⟨fun _ _ => complete_next_of_err,
    fun s e => ⟨statusWord_fail s e, rfl, irq_fail s e, rfl, rfl, rfl, rfl, rfl, rfl⟩,
    by decide⟩

/-- Settles O26: the step is an error entry, which keeps all that is named. -/
theorem erroringCommandsWriteNothing : Obligations.ErroringCommandsWriteNothing := by
  intro s t h ht
  obtain ⟨e, rfl⟩ := complete_next_of_err h ht
  exact ⟨rfl, rfl, rfl, rfl, rfl, rfl⟩

end Sys2Proof.Machine
end

section
/-! Reset, the CTRL writes a running command ignores, and the whole result regions of a command that succeeds
(70_reset_and_hazards.md rules R340, R341, R350, R355). -/

namespace Sys2Proof.Machine

/-- Settles O31: the result holds one value for each region, and a region write sets every word of it; the lengths are
those of the regions by their definition. -/
theorem resultRegionsAreWrittenWhole : Obligations.ResultRegionsAreWrittenWhole := by
  refine ⟨fun i s t h ht => ?_, Mem.read_writeValue, fun _ _ _ _ _ _ _ _ => ⟨rfl, rfl, rfl, rfl, rfl, rfl, rfl, rfl⟩⟩
  obtain ⟨r, hr, rfl⟩ := exec_computed h ht
  exact ⟨r.values, computed_values_length hr, State.succeed_mem s _ r⟩

/-- Settles O39: a CTRL write while BUSY is ignored, whatever its bits. -/
theorem ctrlWritesWhileBusyAreIgnored : Obligations.CtrlWritesWhileBusyAreIgnored := by
  intro s v hp
  rw [hostRegWrite_ctrl, writeCtrl_busy hp]

/-- No register shows the model's own fields, which are all that a reset keeps beside the parameters (log 9). -/
theorem readReg_hardReset (s : State) (r : Reg) : s.hardReset.readReg r = (State.resetWith s.cfg).readReg r := rfl

/-- Settles O50: the reset is taken in every phase, and its registers read as in the state after reset. -/
theorem resetAbandonsEverything : Obligations.ResetAbandonsEverything := by
  refine fun s rest => ⟨(s.advance rest).hardReset, rfl, rfl, rfl, fun _ => rfl, rfl, rfl, fun r h0 h1 => ?_, rfl, rfl⟩
  rw [readReg_hardReset, readReg_resetWith _ r h0 h1]

end Sys2Proof.Machine
end
